-- ==== Sys2Proof/Word.lean ====
section
/-! DEFINITION. The byte, the one data width of the machine (00_scope.md R5, R7). -/

namespace Sys2Proof

/-- A byte: a register, a memory cell, an immediate, the program counter, an operand (00_scope.md R5). -/
abbrev Byte := BitVec 8

/-- `trunc8(v) = v mod 256` (00_scope.md R7). -/
def trunc8 (v : Nat) : Byte := BitVec.ofNat 8 v

end Sys2Proof
end

