-- ==== Sys2Proof/Config.lean ====
section
/-! DEFINITION. What is fixed for the machine: the names of the instruction table, the four formats, and the
parameters of 00_scope.md R5. The opcode byte values (OPC) are in Machine/Opcodes.lean. -/

namespace Sys2Proof

/-- The 13 mnemonics of the fixed instruction table (00_scope.md R2), in the order of 30_encoding.md R55. -/
inductive Mnemonic where
  | hlt | ldi | prn | mul | add | push | pop | call | ret | cmp | jmp | jeq | jne
deriving DecidableEq, Repr

/-- The 13 mnemonics as a list, in the order of 30_encoding.md R55. -/
def Mnemonic.all : List Mnemonic :=
  [.hlt, .ldi, .prn, .mul, .add, .push, .pop, .call, .ret, .cmp, .jmp, .jeq, .jne]

/-- The four instruction formats (30_encoding.md R51). -/
inductive Format where
  /-- N: the opcode byte alone. -/
  | n
  /-- R: opcode, register selector. -/
  | r
  /-- RR: opcode, two register selectors. -/
  | rr
  /-- RI: opcode, register selector, immediate. -/
  | ri
deriving DecidableEq, Repr

namespace Config

/-- MEMSIZE: the number of memory cells (00_scope.md R5). -/
def memSize : Nat := 256

/-- LOAD_BASE: the address of the first image byte (00_scope.md R5). -/
def loadBase : Nat := 0

/-- SP_RESET: the value of register 7 after reset (00_scope.md R5). -/
def spReset : Byte := 0xF4

/-- PC_RESET (00_scope.md R5, the spec's decision D2; UNVERIFIED, log 4). -/
def pcReset : Byte := 0

/-- STACK_LIMIT of this hardware (43_stack_call.md R116, the spec's decision D11; UNVERIFIED, log 15). -/
def stackLimit : Byte := 0

/-- What a memory cell that nothing has written reads as. DESIGN CHOICE (log 3), unsafe: the spec leaves the
content open (RESET_MEM, 10_state.md R25) and offers zero as the simulator's default. -/
def unlistedByte : Byte := 0

/-- The value of x[0] to x[6] after reset. DESIGN CHOICE (log 2), unsafe: the spec leaves it open (RESET_GPR,
10_state.md R25) and offers zero as the simulator's default. -/
def gprReset : Byte := 0

end Config

end Sys2Proof
end

