-- ==== Sys2Proof/Machine/Opcodes.lean ====
section
/-! DEFINITION. The configuration table OPC and what the opcode byte alone decides: the mnemonic, the format
and the length (30_encoding.md R50 to R57). The table stands here and nowhere else. -/

namespace Sys2Proof

/-- OPC, the opcode byte of each mnemonic (30_encoding.md R55). PRESUMED (log 1): the spec takes the values
from general knowledge (92_eei_decisions.md D1). -/
def opc : Mnemonic → Byte
  | .hlt  => 0x01
  | .ldi  => 0x82
  | .prn  => 0x47
  | .mul  => 0xA2
  | .add  => 0xA0
  | .push => 0x45
  | .pop  => 0x46
  | .call => 0x50
  | .ret  => 0x11
  | .cmp  => 0xA7
  | .jmp  => 0x54
  | .jeq  => 0x55
  | .jne  => 0x56

/-- The format of each mnemonic (30_encoding.md R51, R55). -/
def Mnemonic.format : Mnemonic → Format
  | .hlt | .ret => .n
  | .prn | .push | .pop | .call | .jmp | .jeq | .jne => .r
  | .mul | .add | .cmp => .rr
  | .ldi => .ri

/-- The number of operand bytes of a format (30_encoding.md R51). -/
def Format.operands : Format → Nat
  | .n => 0
  | .r => 1
  | .rr | .ri => 2

/-- An exact match of the whole opcode byte against the 13 values (30_encoding.md R53); `none` is an unknown
opcode (R57). -/
def decodeOp (op : Byte) : Option Mnemonic :=
  Mnemonic.all.find? (fun m => opc m == op)

/-- The length the opcode byte decides: one more than its operands, and 1 for an unknown opcode (R50, R57). -/
def opLength (op : Byte) : Nat :=
  match decodeOp op with
  | some m => 1 + m.format.operands
  | none => 1

end Sys2Proof
end

