-- ==== Sys2Proof/Syntax.lean ====
section
/-! DEFINITION. The instructions: one constructor per row of spec/opcode_table.json. An operand is the whole
operand byte, as 30_encoding.md R51 and R52 give it: a selector above 7 is an instruction that faults when it is
executed, not a reserved encoding (R57), so it is syntax like any other. -/

namespace Sys2Proof

/-- An instruction. `a` and `b` are the first and second operand bytes (00_scope.md R7). -/
inductive Instr where
  /-- HLT (40_dispatcher_hlt_unknown.md R76). -/
  | hlt
  /-- LDI a, imm (41_load_output.md R90). -/
  | ldi (a imm : Byte)
  /-- PRN a (41_load_output.md R91). -/
  | prn (a : Byte)
  /-- MUL a, b (41_load_output.md R92). -/
  | mul (a b : Byte)
  /-- ADD a, b (42_alu.md R102). -/
  | add (a b : Byte)
  /-- PUSH a (43_stack_call.md R111). -/
  | push (a : Byte)
  /-- POP a (43_stack_call.md R112). -/
  | pop (a : Byte)
  /-- CALL a (43_stack_call.md R113). -/
  | call (a : Byte)
  /-- RET (43_stack_call.md R115). -/
  | ret
  /-- CMP a, b (42_alu.md R103). -/
  | cmp (a b : Byte)
  /-- JMP a (44_jump.md R125). -/
  | jmp (a : Byte)
  /-- JEQ a (44_jump.md R126). -/
  | jeq (a : Byte)
  /-- JNE a (44_jump.md R127). -/
  | jne (a : Byte)
  /-- UNKNOWN: any opcode byte that is none of the 13 (40_dispatcher_hlt_unknown.md R77). -/
  | unknown (op : Byte)
deriving DecidableEq, Repr

end Sys2Proof
end

