-- ==== Sys2Proof/WellFormed.lean ====
section
/-! DEFINITION. Which terms of `Instr` are instructions of the machine. One check: UNKNOWN carries a byte that
is none of the 13 opcode values (30_encoding.md R57). Operand bytes are never reserved (R57). -/

namespace Sys2Proof

/-- The instruction is one that some bytes encode. -/
def Instr.wellFormed : Instr → Bool
  | .unknown op => (decodeOp op).isNone
  | .hlt | .ldi _ _ | .prn _ | .mul _ _ | .add _ _ | .push _ | .pop _ | .call _ | .ret | .cmp _ _
  | .jmp _ | .jeq _ | .jne _ => true

end Sys2Proof
end

