-- ==== Sys2Proof/Decode.lean ====
section
/-! DEFINITION. The decoder, total on any bytes, and the encoder, both from 30_encoding.md R50 to R57. -/

namespace Sys2Proof

/-- Why a list of bytes is not a whole instruction. Every opcode byte has a meaning (30_encoding.md R54), so the
only reasons are missing bytes. -/
inductive DecodeReject where
  /-- There is no opcode byte. -/
  | noBytes
  /-- The opcode byte asks for `need` bytes in all and only `have_` are there. -/
  | truncated (need have_ : Nat)
deriving DecidableEq, Repr

/-- The instruction of an opcode byte and its operand bytes (30_encoding.md R51, R53); an operand the format
does not have is not used. -/
def assemble (op a b : Byte) : Instr :=
  match decodeOp op with
  | some .hlt  => .hlt
  | some .ldi  => .ldi a b
  | some .prn  => .prn a
  | some .mul  => .mul a b
  | some .add  => .add a b
  | some .push => .push a
  | some .pop  => .pop a
  | some .call => .call a
  | some .ret  => .ret
  | some .cmp  => .cmp a b
  | some .jmp  => .jmp a
  | some .jeq  => .jeq a
  | some .jne  => .jne a
  | none       => .unknown op

/-- The first instruction of a list of bytes, and the bytes after it: the opcode byte first, then the operand
bytes in ascending address order (30_encoding.md R50). -/
def decode : List Byte → Except DecodeReject (Instr × List Byte)
  | [] => .error .noBytes
  | op :: rest =>
    if rest.length + 1 < opLength op then .error (.truncated (opLength op) (rest.length + 1))
    else .ok (assemble op (rest.getD 0 0) (rest.getD 1 0), rest.drop (opLength op - 1))

/-- The bytes of an instruction, lowest address first (30_encoding.md R51, R55). -/
def encode : Instr → List Byte
  | .hlt       => [opc .hlt]
  | .ldi a imm => [opc .ldi, a, imm]
  | .prn a     => [opc .prn, a]
  | .mul a b   => [opc .mul, a, b]
  | .add a b   => [opc .add, a, b]
  | .push a    => [opc .push, a]
  | .pop a     => [opc .pop, a]
  | .call a    => [opc .call, a]
  | .ret       => [opc .ret]
  | .cmp a b   => [opc .cmp, a, b]
  | .jmp a     => [opc .jmp, a]
  | .jeq a     => [opc .jeq, a]
  | .jne a     => [opc .jne, a]
  | .unknown op => [op]

/-- The bytes of an instruction given as a number, bit 0 the least significant bit of the first byte: as many
bytes as the longest instruction has, every bit from `nbits` up zero. -/
def tableBytes (nbits w : Nat) : List Byte :=
  [trunc8 (w % 2 ^ nbits), trunc8 (w % 2 ^ nbits / 2 ^ 8), trunc8 (w % 2 ^ nbits / 2 ^ 16)]

/-- The instruction the decoder reads from an instruction given as a number. -/
def decodeTableWord (nbits w : Nat) : Option Instr :=
  match decode (tableBytes nbits w) with
  | .ok (i, _) => some i
  | .error _ => none

end Sys2Proof
end

