-- ==== Sys2Proof/Machine/State.lean ====
section
/-! DEFINITION. The state of the machine, as plain data: the tuple (MEM, x, FL, PC, RUN) and the Sink stream OUT
of 10_state.md, the reasons a step can stop, and the state after reset (R25). -/

namespace Sys2Proof.Machine

/-- Memory: the cells that differ from `Config.unlistedByte`, as address and byte, addresses strictly rising
(20_memory.md R30). `Memory.wf` (Machine/Ops.lean) is the canonical form. -/
abbrev Memory := List Host.Cell

/-- The flags register: LESS_THAN, GREATER_THAN, EQUAL, three Booleans without a byte layout (10_state.md R17). -/
structure Flags where
  l : Bool
  g : Bool
  e : Bool
deriving DecidableEq, Repr

/-- The ALU's operation selector (42_alu.md R100): ADD, CMP, and `other`, the selectors the ALU does not implement,
kept so that R101 has an outcome for them (log 17). The dispatcher sends none of them. -/
inductive AluSel where
  | add
  | cmp
  | other (code : Byte)
deriving DecidableEq, Repr

/-- The kinds of out-of-range access the dispatcher can raise (60_exceptions.md R141). -/
inductive OobKind where
  /-- The instruction does not fit in memory (40_dispatcher_hlt_unknown.md R73). -/
  | operandFetch
  /-- A register selector above 7 (10_state.md R13). -/
  | regIndex
  /-- CALL's return address is not a byte (43_stack_call.md R113). -/
  | returnAddr
  /-- SP would leave its range (43_stack_call.md R114). -/
  | stackAddr
  /-- The next instruction would be fetched beyond address 255 (40_dispatcher_hlt_unknown.md R75). -/
  | nextFetch
deriving DecidableEq, Repr

/-- An exception with what it records (60_exceptions.md R141). The value of a push fault can be -1, so it is
an integer. -/
inductive Cause where
  | outOfBounds (kind : OobKind) (value : Int)
  | unsupportedOperation (sel : AluSel)
deriving DecidableEq, Repr

/-- RUN, the dispatcher's state register (10_state.md R19). -/
inductive RunState where
  | running
  | halted
  | faulted (c : Cause)
deriving DecidableEq, Repr

/-- What the core sends to the Sink (10_state.md R22). -/
inductive Event where
  /-- From PRN (0 to 255) and MUL (0 to 65025). -/
  | print (n : Nat)
  /-- From an unknown opcode byte. -/
  | diag (b : Byte)
deriving DecidableEq, Repr

/-- The architectural state (10_state.md). -/
structure State where
  /-- MEM (R21). -/
  mem : Memory
  /-- x[0] to x[7]; x[7] is SP (R10, R11). -/
  x : Vector Byte 8
  /-- FL (R17). -/
  fl : Flags
  /-- PC (R14). -/
  pc : Byte
  /-- RUN (R19). -/
  run : RunState
  /-- OUT, oldest event first (R22). -/
  out : List Event
deriving DecidableEq, Repr

/-- The reasons the machine stops outside the run states of R19. No step raises one: the core's own faults are
states, `RunState.faulted` (60_exceptions.md R146). -/
inductive Fault where
  /-- `OutOfBounds(Load, value)`: raised by `load` alone, for an image longer than memory (70_reset_and_hazards.md
  R174). Safe: the run does not start. -/
  | loadOutOfBounds (value : Nat)
deriving DecidableEq, Repr

/-- The reasons an instruction has no meaning. No meaning answers one. -/
inductive Refusal where
  /-- Raised by an arm of `exec` that has no meaning yet; every arm has one. Safe: nothing follows from it. -/
  | notModelled (mnemonic : String)
deriving DecidableEq, Repr

/-- The state after reset for given contents of the registers 0 to 6 and of memory, the two open parameters
RESET_GPR and RESET_MEM (10_state.md R25, 70_reset_and_hazards.md R171). -/
def State.resetWith (gpr : Vector Byte 7) (mem : Memory) : State where
  mem := mem
  x := gpr.push Config.spReset
  fl := ⟨false, false, false⟩
  pc := Config.pcReset
  run := .running
  out := []

/-- The state after reset (10_state.md R25). DESIGN CHOICE: RESET_GPR is zero (log 2) and memory has nothing
listed (log 3). -/
def State.reset : State :=
  State.resetWith (Vector.replicate 7 Config.gprReset) []

end Sys2Proof.Machine
end

