-- ==== Sys2Proof/Machine/Ops.lean ====
section
/-! DEFINITION. The shared operations: memory, registers, the Sink, taking an exception, the sequential advance and
the stack slot. -/

namespace Sys2Proof.Machine

/-! ### Memory (20_memory.md) -/

/-- The canonical form: addresses strictly rising, all in 0..255, no entry equal to what an unlisted cell reads as. -/
def Memory.wf : Memory → Bool
  | [] => true
  | (a, v) :: rest =>
    decide (a < Config.memSize) && (v != Config.unlistedByte) && rest.all (fun c => decide (a < c.1)) && Memory.wf rest

/-- `MEM[a]` (20_memory.md R31). -/
def Memory.read (m : Memory) (a : Nat) : Byte := (m.lookup a).getD Config.unlistedByte

/-- The memory without an entry for an address. -/
def Memory.erase (m : Memory) (a : Nat) : Memory := m.filter (fun c => c.1 != a)

/-- An entry put before the first entry of a higher address. -/
def Memory.insert (a : Nat) (v : Byte) : Memory → Memory
  | [] => [(a, v)]
  | c :: rest => if a < c.1 then (a, v) :: c :: rest else c :: Memory.insert a v rest

/-- `MEM[a] <- v` (20_memory.md R31), in canonical form. -/
def Memory.write (m : Memory) (a : Nat) (v : Byte) : Memory :=
  if v = Config.unlistedByte then m.erase a else Memory.insert a v (m.erase a)

/-- Bytes written one after another from an address up, lowest first (70_reset_and_hazards.md R173). -/
def Memory.store (m : Memory) (a : Nat) : List Byte → Memory
  | [] => m
  | v :: vs => (m.write a v).store (a + 1) vs

/-- `MemRead(a, 1)`. The address is a byte, so it is in range (20_memory.md R31). -/
def State.memRead (s : State) (a : Byte) : Byte := s.mem.read a.toNat

/-- `MemWrite(a, 1, v)`. The address is a byte, so it is in range (20_memory.md R31). -/
def State.memWrite (s : State) (a v : Byte) : State := { s with mem := s.mem.write a.toNat v }

/-! ### Registers, flags, PC, RUN and the Sink (10_state.md) -/

/-- The index of the stack pointer (10_state.md R11). -/
def spIndex : Fin 8 := 7

/-- `x[r]`. No register is hardwired (10_state.md R10). -/
def State.reg (s : State) (r : Fin 8) : Byte := s.x[r]

/-- `x[r] <- v`. -/
def State.setReg (s : State) (r : Fin 8) (v : Byte) : State := { s with x := s.x.set r v }

/-- `SP`, another name for `x[7]` (10_state.md R11). -/
def State.sp (s : State) : Byte := s.reg spIndex

/-- `SP <- v`. -/
def State.setSp (s : State) (v : Byte) : State := s.setReg spIndex v

/-- `PC <- v`. -/
def State.setPc (s : State) (v : Byte) : State := { s with pc := v }

/-- `FL <- f`, all three flags at once (10_state.md R18). -/
def State.setFl (s : State) (f : Flags) : State := { s with fl := f }

/-- `RUN <- r`. -/
def State.setRun (s : State) (r : RunState) : State := { s with run := r }

/-- `emit e`: the Sink stream only grows (10_state.md R22). -/
def State.emit (s : State) (e : Event) : State := { s with out := s.out ++ [e] }

/-! ### Exceptions (60_exceptions.md)

There is no return from an exception: no handler, nothing saved, the only way out is reset (R148). -/

/-- Taking an exception: `RUN <- FAULTED(c)` and nothing else changes (60_exceptions.md R146). -/
def raise (c : Cause) (s : State) : State := s.setRun (.faulted c)

/-- An address or stack pointer computed as an integer and tested before it is used: in 0..255 the operation goes
on with the byte, above it `OutOfBounds(kind, v)` is raised on the state as it stands (20_memory.md R31, R33). -/
def bounded (kind : OobKind) (v : Nat) (s : State) (k : Byte → State) : State :=
  if v ≤ 255 then k (trunc8 v) else raise (.outOfBounds kind v) s

/-- The sequential advance by an instruction of length `len` (40_dispatcher_hlt_unknown.md R75). `s` is the state
after the instruction's effects; the fault keeps them and leaves PC. -/
def advance (len : Nat) (s : State) : State :=
  if s.pc.toNat + len ≤ 255 then s.setPc (trunc8 (s.pc.toNat + len))
  else if s.run = .running then raise (.outOfBounds .nextFetch ((s.pc.toNat + len : Nat) : Int)) s
  else s

/-! ### The stack slot (43_stack_call.md) -/

/-- The pre-decrement of PUSH and CALL: `OutOfBounds(StackAddr, SP - 1)` on the state as it stands when
`SP <= limit`, else `SP <- SP - 1` and on with that state (43_stack_call.md R114, R116). -/
def pushSlot (limit : Byte) (s : State) (k : State → State) : State :=
  if s.sp.toNat ≤ limit.toNat then raise (.outOfBounds .stackAddr ((s.sp.toNat : Int) - 1)) s
  else k (s.setSp (trunc8 (s.sp.toNat - 1)))

end Sys2Proof.Machine
end

