-- ==== Sys2Proof/Machine/Flags.lean ====
section
/-! DEFINITION. The flag computations: CMP writes all three flags, JEQ and JNE read E (10_state.md R17, R18). -/

namespace Sys2Proof.Machine

/-- The flags of an unsigned comparison of two bytes (42_alu.md R100, R103). -/
def compareFlags (va vb : Byte) : Flags where
  l := decide (va.toNat < vb.toNat)
  g := decide (va.toNat > vb.toNat)
  e := decide (va.toNat = vb.toNat)

/-- The condition of JEQ: FL.E (44_jump.md R126). -/
def condEqual (f : Flags) : Bool := f.e

/-- The condition of JNE: not FL.E (44_jump.md R127). -/
def condNotEqual (f : Flags) : Bool := !f.e

end Sys2Proof.Machine
end

