-- ==== Sys2Proof/Machine/Operands.lean ====
section
/-! DEFINITION. The operand forms: a register selector is a whole byte, checked before the instruction changes
anything, the first operand first (10_state.md R13, 30_encoding.md R52). An immediate is the operand byte itself. -/

namespace Sys2Proof.Machine

/-- The register a selector byte names: 0..7, all 8 bits compared (10_state.md R13). -/
def selector (b : Byte) : Option (Fin 8) :=
  if h : b.toNat < 8 then some ⟨b.toNat, h⟩ else none

/-- One register operand: on with the register, or `OutOfBounds(RegIndex, b)` (10_state.md R13). -/
def withReg (b : Byte) (s : State) (k : Fin 8 → State) : State :=
  match selector b with
  | some r => k r
  | none => raise (.outOfBounds .regIndex (b.toNat : Int)) s

/-- Two register operands, `a` checked before `b` (10_state.md R13). -/
def withRegs (a b : Byte) (s : State) (k : Fin 8 → Fin 8 → State) : State :=
  withReg a s fun r => withReg b s fun q => k r q

end Sys2Proof.Machine
end

