-- ==== Sys2Proof/Machine/Alu.lean ====
section
/-! DEFINITION. The ALU and the two instructions that use it, ADD and CMP (42_alu.md R100 to R103). -/

namespace Sys2Proof.Machine

/-- What the ALU returns: an updated register value or an updated flag triple (42_alu.md R100). -/
inductive AluResult where
  | value (v : Byte)
  | flags (f : Flags)
deriving DecidableEq, Repr

/-- The ALU, a pure function of a selector and two bytes (42_alu.md R100); a selector it does not implement is
UnsupportedOperation (R101). -/
def alu : AluSel → Byte → Byte → Except Cause AluResult
  | .add, va, vb => .ok (.value (trunc8 (va.toNat + vb.toNat)))
  | .cmp, va, vb => .ok (.flags (compareFlags va vb))
  | .other code, _, _ => .error (.unsupportedOperation (.other code))

/-- An instruction that drives the ALU: a value goes to `x[a]`, a flag triple to FL (42_alu.md R102, R103). -/
def aluInstr (sel : AluSel) (a b : Byte) (s : State) : State :=
  withRegs a b s fun r q =>
    match alu sel (s.reg r) (s.reg q) with
    | .ok (.value v) => advance 3 (s.setReg r v)
    | .ok (.flags f) => advance 3 (s.setFl f)
    | .error c => raise c s

/-- ADD a, b: `x[a] <- trunc8(x[a] + x[b])` (R102). -/
def execAdd (a b : Byte) (s : State) : Host.Outcome State Fault Refusal :=
  .next (aluInstr .add a b s)

/-- CMP a, b: FL <- the unsigned comparison of `x[a]` with `x[b]` (R103). -/
def execCmp (a b : Byte) (s : State) : Host.Outcome State Fault Refusal :=
  .next (aluInstr .cmp a b s)

end Sys2Proof.Machine
end

