-- ==== Sys2Proof/Machine/Control.lean ====
section
/-! DEFINITION. HLT and the unknown opcode (40_dispatcher_hlt_unknown.md R76, R77). -/

namespace Sys2Proof.Machine

/-- HLT: `RUN <- HALTED`, then the advance by 1, which after HLT never faults (R75, R76). -/
def execHlt (s : State) : Host.Outcome State Fault Refusal :=
  .next (advance 1 (s.setRun .halted))

/-- UNKNOWN: emit `Diag(op)`, then the advance by 1 (R77). -/
def execUnknown (op : Byte) (s : State) : Host.Outcome State Fault Refusal :=
  .next (advance 1 (s.emit (.diag op)))

end Sys2Proof.Machine
end

