-- ==== Sys2Proof/Machine/Jump.lean ====
section
/-! DEFINITION. JMP, JEQ, JNE (44_jump.md R125 to R127). -/

namespace Sys2Proof.Machine

/-- A jump to the address in a register when the condition holds, else the advance by 2; the selector is checked in
both cases (44_jump.md R126, R127). -/
def jumpIf (cond : Bool) (a : Byte) (s : State) : State :=
  withReg a s fun r => if cond then s.setPc (s.reg r) else advance 2 s

/-- JMP a (R125). -/
def execJmp (a : Byte) (s : State) : Host.Outcome State Fault Refusal :=
  .next (withReg a s fun r => s.setPc (s.reg r))

/-- JEQ a (R126). -/
def execJeq (a : Byte) (s : State) : Host.Outcome State Fault Refusal :=
  .next (jumpIf (condEqual s.fl) a s)

/-- JNE a (R127). -/
def execJne (a : Byte) (s : State) : Host.Outcome State Fault Refusal :=
  .next (jumpIf (condNotEqual s.fl) a s)

end Sys2Proof.Machine
end

