-- ==== Sys2Proof/Machine/LoadOutput.lean ====
section
/-! DEFINITION. LDI, PRN, MUL (41_load_output.md R90 to R92). -/

namespace Sys2Proof.Machine

/-- LDI a, imm: `x[a] <- imm` (R90). -/
def execLdi (a imm : Byte) (s : State) : Host.Outcome State Fault Refusal :=
  .next (withReg a s fun r => advance 3 (s.setReg r imm))

/-- PRN a: emit `Print(x[a])`, the unsigned value (R91). -/
def execPrn (a : Byte) (s : State) : Host.Outcome State Fault Refusal :=
  .next (withReg a s fun r => advance 2 (s.emit (.print (s.reg r).toNat)))

/-- MUL a, b: emit `Print(x[a] * x[b])`, the whole product; no register is written (R92). -/
def execMul (a b : Byte) (s : State) : Host.Outcome State Fault Refusal :=
  .next (withRegs a b s fun r q => advance 3 (s.emit (.print ((s.reg r).toNat * (s.reg q).toNat))))

end Sys2Proof.Machine
end

