-- ==== Sys2Proof/Machine/Stack.lean ====
section
/-! DEFINITION. PUSH, POP, CALL, RET (43_stack_call.md R110 to R116). PUSH and CALL are written for any STACK_LIMIT
(R116) and run with this hardware's. The statements are in the order the rules give them, which decides the
forms with register 7 (log 14). -/

namespace Sys2Proof.Machine

/-- PUSH for a given STACK_LIMIT; `x[a]` is read after SP was decremented (R111). -/
def pushWith (limit a : Byte) (s : State) : State :=
  withReg a s fun r => pushSlot limit s fun s1 => advance 2 (s1.memWrite s1.sp (s1.reg r))

/-- CALL for a given STACK_LIMIT; `x[a]` is read after SP was decremented (R113). -/
def callWith (limit a : Byte) (s : State) : State :=
  withReg a s fun r =>
    bounded .returnAddr (s.pc.toNat + 2) s fun ret =>
      pushSlot limit s fun s1 => (s1.memWrite s1.sp ret).setPc (s1.reg r)

/-- PUSH a (R111). -/
def execPush (a : Byte) (s : State) : Host.Outcome State Fault Refusal :=
  .next (pushWith Config.stackLimit a s)

/-- POP a: `x[a] <- MEM[SP]`, then `SP <- SP + 1`, where SP is read after `x[a]` was written (R112). -/
def execPop (a : Byte) (s : State) : Host.Outcome State Fault Refusal :=
  .next (withReg a s fun r =>
    let v := s.memRead s.sp
    bounded .stackAddr (if r = spIndex then v.toNat + 1 else s.sp.toNat + 1) s fun newSp =>
      advance 2 ((s.setReg r v).setSp newSp))

/-- CALL a (R113). -/
def execCall (a : Byte) (s : State) : Host.Outcome State Fault Refusal :=
  .next (callWith Config.stackLimit a s)

/-- RET: `PC <- MEM[SP]`, `SP <- SP + 1` (R115). -/
def execRet (s : State) : Host.Outcome State Fault Refusal :=
  .next (bounded .stackAddr (s.sp.toNat + 1) s fun newSp => (s.setPc (s.memRead s.sp)).setSp newSp)

end Sys2Proof.Machine
end

