-- ==== Sys2Proof/Machine/Fetch.lean ====
section
/-! DEFINITION. Fetch and decode (40_dispatcher_hlt_unknown.md R72, R73), and the placing of an instruction where the
next fetch finds it. -/

namespace Sys2Proof.Machine

/-- An operand byte at distance `k` of an instruction of length `len`; a byte the instruction does not have is
not read (R73). -/
def operandByte (s : State) (len k : Nat) : Byte :=
  if k < len then s.mem.read (s.pc.toNat + k) else 0

/-- The instruction at PC, or `OutOfBounds(OperandFetch, PC + L - 1)` when its last byte lies beyond memory
(R72, R73). -/
def fetch (s : State) : Except Cause Instr :=
  let op := s.memRead s.pc
  let len := opLength op
  if s.pc.toNat + len - 1 ≤ 255 then .ok (assemble op (operandByte s len 1) (operandByte s len 2))
  else .error (.outOfBounds .operandFetch ((s.pc.toNat + len - 1 : Nat) : Int))

/-- The bytes stored from PC up, as many as fit below the end of memory, and the dispatcher running (log 9). -/
def State.placeAtPc (s : State) (bs : List Byte) : State :=
  { s with mem := s.mem.store s.pc.toNat (bs.take (Config.memSize - s.pc.toNat)), run := .running }

end Sys2Proof.Machine
end

