-- ==== Sys2Proof/Machine/Step.lean ====
section
/-! DEFINITION. The step (40_dispatcher_hlt_unknown.md R70 to R74). -/

namespace Sys2Proof.Machine

/-- One step. A running dispatcher fetches, decodes and executes one instruction, or takes the exception of the
fetch (R72 to R74); a halted or faulted one takes no step, and the state stays as it is (R71, log 5). -/
def step (s : State) : Host.Outcome State Fault Refusal :=
  match s.run with
  | .running =>
    match fetch s with
    | .ok i => exec i s
    | .error c => .next (raise c s)
  | .halted => .next s
  | .faulted _ => .next s

/-- The state with an instruction, given as a number (see `decodeTableWord`), where the step fetches (log 9). -/
def State.withFetchWord (s : State) (nbits w : Nat) : State :=
  s.placeAtPc (tableBytes nbits w)

end Sys2Proof.Machine
end

