-- ==== Sys2Proof/Machine/Load.lean ====
section
/-! DEFINITION. What the outside does to the core: reset and the one-time load (70_reset_and_hazards.md R170 to R177). -/

namespace Sys2Proof.Machine

/-- The load: image byte i to address i; an image of more than 256 bytes fails with `OutOfBounds(Load, 256)` and the
run does not start (R173, R174). -/
def load (img : List Byte) (s : State) : Host.Outcome State Fault Refusal :=
  if img.length ≤ Config.memSize then .next { s with mem := s.mem.store Config.loadBase img }
  else .fault (.loadOutOfBounds Config.memSize)

/-- Reset, applicable in any run state; nothing survives it (R170). -/
def hostReset (gpr : Vector Byte 7) (mem : Memory) (_ : State) : State := State.resetWith gpr mem

/-- The launch state: reset, then the load (R172). -/
def launch (gpr : Vector Byte 7) (mem : Memory) (img : List Byte) : Host.Outcome State Fault Refusal :=
  load img (State.resetWith gpr mem)

end Sys2Proof.Machine
end

