-- ==== Sys2Proof/Safety.lean ====
section
/-! DEFINITION. What claims are stated in: the invariant of 10_state.md R26, the causes a run of this hardware can end
with (60_exceptions.md R141), and how a run ends (40_dispatcher_hlt_unknown.md R79). -/

namespace Sys2Proof.Machine

/-- At most one flag is true (10_state.md R26). -/
def Flags.atMostOne (f : Flags) : Bool := !(f.l && f.g) && !(f.l && f.e) && !(f.g && f.e)

/-- Exactly one flag is true (10_state.md R17). -/
def Flags.exactlyOne (f : Flags) : Bool := f.atMostOne && (f.l || f.g || f.e)

/-- An event the core can emit: a number up to 255 * 255, or a byte that is no opcode (10_state.md R22, R77). -/
def Event.possible : Event → Bool
  | .print n => decide (n ≤ 65025)
  | .diag b => (decodeOp b).isNone

/-- A cause with a value that 60_exceptions.md R141 lists; UnsupportedOperation is not among them, since no program
raises it (R143). -/
def Cause.listed : Cause → Bool
  | .outOfBounds .operandFetch v => decide (v = 256 ∨ v = 257)
  | .outOfBounds .regIndex v => decide (8 ≤ v ∧ v ≤ 255)
  | .outOfBounds .returnAddr v => decide (v = 256)
  | .outOfBounds .stackAddr v => decide ((-1 ≤ v ∧ v < Config.stackLimit.toNat) ∨ v = 256)
  | .outOfBounds .nextFetch v => decide (v = 256)
  | .unsupportedOperation _ => false

/-- A run state the machine can be in. -/
def RunState.possible : RunState → Bool
  | .running | .halted => true
  | .faulted c => c.listed

/-- The invariant: memory in canonical form within 0..255, at most one flag, only events and causes the spec
lists (10_state.md R22, R26; 20_memory.md R30; 60_exceptions.md R141). -/
def State.Inv (s : State) : Prop :=
  s.mem.wf = true ∧ s.fl.atMostOne = true ∧ (∀ e ∈ s.out, e.possible = true) ∧ s.run.possible = true

/-- The run has ended well: HALTED (40_dispatcher_hlt_unknown.md R79). -/
def State.endedWell (s : State) : Prop := s.run = .halted

/-- The run has ended badly: FAULTED(c) (40_dispatcher_hlt_unknown.md R79, 60_exceptions.md R146). -/
def State.endedBadly (s : State) : Prop := ∃ c, s.run = .faulted c

end Sys2Proof.Machine
end

