-- ==== Sys2Proof/Certificates/Slice0/Obligations.lean ====
section
/-! DEFINITION. The statements for the provers. Each names the rule of the spec it formalises. A docstring also
names the spec's own decisions (D<n>) and the log entries that the statement rests on.

In every statement the next state is written out as a record update, so it gives the result and the frame in one
equation: whatever the update does not name is as it was. Addresses are natural numbers, so that `s.pc.toNat + 3`
is the sum without wrap-around (00_scope.md R7). -/

namespace Sys2Proof.Claims

open Sys2Proof.Machine

/-- `raise OutOfBounds(kind, v)` on the state `s`: RUN <- FAULTED and nothing else changes (60_exceptions.md R146). -/
def oob (s : State) (kind : OobKind) (v : Int) : State := { s with run := .faulted (.outOfBounds kind v) }

/-- The end of an instruction of length `len` whose sequential advance passes address 255: the state `t` of its
effects is kept, and OutOfBounds(NextFetch) is raised on it (40_dispatcher_hlt_unknown.md R75). -/
def OverrunsAfter (i : Instr) (len : Nat) (s t : State) : Prop :=
  255 < s.pc.toNat + len → s.run = .running → exec i s = .next (oob t .nextFetch ((s.pc.toNat + len : Nat) : Int))

/-- A selector byte above 7 raises OutOfBounds(RegIndex) and nothing else changes (10_state.md R13). -/
def FaultsOnSelector (i : Instr) (b : Byte) (s : State) : Prop :=
  8 ≤ b.toNat → exec i s = .next (oob s .regIndex (b.toNat : Int))

/-- One-byte instructions: a running machine with the opcode byte at PC executes the instruction. -/
def FetchedAs1 (op : Byte) (i : Instr) : Prop :=
  ∀ s : State, s.run = .running → s.mem.read s.pc.toNat = op → step s = exec i s

/-- Two-byte instructions: opcode, then `a`; at PC = 255 OutOfBounds(OperandFetch, 256) and no other effect. -/
def FetchedAs2 (op : Byte) (mk : Byte → Instr) : Prop :=
  ∀ s : State, s.run = .running → s.mem.read s.pc.toNat = op →
    (s.pc.toNat ≤ 254 → step s = exec (mk (s.mem.read (s.pc.toNat + 1))) s) ∧
    (s.pc.toNat = 255 → step s = .next (oob s .operandFetch 256))

/-- Three-byte instructions: opcode, `a`, `b`; from PC = 254 on OutOfBounds(OperandFetch, PC + 2) and no other effect. -/
def FetchedAs3 (op : Byte) (mk : Byte → Byte → Instr) : Prop :=
  ∀ s : State, s.run = .running → s.mem.read s.pc.toNat = op →
    (s.pc.toNat ≤ 253 →
      step s = exec (mk (s.mem.read (s.pc.toNat + 1)) (s.mem.read (s.pc.toNat + 2))) s) ∧
    (254 ≤ s.pc.toNat → step s = .next (oob s .operandFetch ((s.pc.toNat + 2 : Nat) : Int)))

/-- The memory `m` is that of `s` but for the byte `v` at `addr`. -/
def StoresByte (s : State) (m : Memory) (addr : Nat) (v : Byte) : Prop :=
  m.read addr = v ∧ ∀ b, b ≠ addr → m.read b = s.mem.read b

/-- The mnemonic of an instruction, none for an unknown opcode. -/
def mnemonicOf : Instr → Option Mnemonic
  | .hlt => some .hlt | .ldi _ _ => some .ldi | .prn _ => some .prn | .mul _ _ => some .mul
  | .add _ _ => some .add | .push _ => some .push | .pop _ => some .pop | .call _ => some .call
  | .ret => some .ret | .cmp _ _ => some .cmp | .jmp _ => some .jmp | .jeq _ => some .jeq
  | .jne _ => some .jne | .unknown _ => none

/-- The length of each instruction (10_state.md R15, 30_encoding.md R51). -/
def lengthOf : Mnemonic → Nat
  | .hlt | .ret => 1
  | .prn | .push | .pop | .call | .jmp | .jeq | .jne => 2
  | .ldi | .mul | .add | .cmp => 3

/-- The registers an instruction reads (10_state.md R12). -/
def ReadsReg (i : Instr) (r : Fin 8) : Prop :=
  match i with
  | .hlt | .ldi _ _ | .unknown _ => False
  | .prn a | .jmp a | .jeq a | .jne a => a.toNat = r.val
  | .mul a b | .add a b | .cmp a b => a.toNat = r.val ∨ b.toNat = r.val
  | .push a | .call a => r = 7 ∨ a.toNat = r.val
  | .pop _ | .ret => r = 7

/-- The registers an instruction writes (10_state.md R12). -/
def WritesReg (i : Instr) (r : Fin 8) : Prop :=
  match i with
  | .hlt | .prn _ | .mul _ _ | .cmp _ _ | .jmp _ | .jeq _ | .jne _ | .unknown _ => False
  | .ldi a _ | .add a _ => a.toNat = r.val
  | .push _ | .call _ | .ret => r = 7
  | .pop a => a.toNat = r.val ∨ r = 7

/-- PC after a sequential advance by `len` that stays within memory. -/
def Sequential (len : Nat) (s t : State) : Prop :=
  s.pc.toNat + len ≤ 255 → t.pc.toNat = s.pc.toNat + len

/-- PC after each instruction, from `s` to `t` (10_state.md R15). -/
def PcAfter (i : Instr) (s t : State) : Prop :=
  match i with
  | .hlt | .unknown _ => Sequential 1 s t
  | .ldi _ _ | .mul _ _ | .add _ _ | .cmp _ _ => Sequential 3 s t
  | .prn _ | .push _ | .pop _ => Sequential 2 s t
  | .call a => ∀ r : Fin 8, a.toNat = r.val → t.pc = t.x[r]
  | .ret => t.pc = s.mem.read s.x[7].toNat
  | .jmp a => ∀ r : Fin 8, a.toNat = r.val → t.pc = s.x[r]
  | .jeq a => if s.fl.e then ∀ r : Fin 8, a.toNat = r.val → t.pc = s.x[r] else Sequential 2 s t
  | .jne a => if s.fl.e then Sequential 2 s t else ∀ r : Fin 8, a.toNat = r.val → t.pc = s.x[r]

/-- The opcode byte of the next instruction. -/
def opAt (s : State) : Byte := s.mem.read s.pc.toNat

/-- The stack pointer after a POP with selector `a` would be 256 (43_stack_call.md R114). -/
abbrev PopPassesTop (a : Byte) (s : State) : Prop :=
  a.toNat < 7 ∧ s.x[7].toNat = 255 ∨ a.toNat = 7 ∧ (s.mem.read s.x[7].toNat).toNat = 255

/-- When a step from `s` can end with each cause, and with which value (60_exceptions.md R141). -/
def RaisedWhen (s : State) : Cause → Prop
  | .outOfBounds .operandFetch v =>
      v = s.pc.toNat + opLength (opAt s) - 1 ∧ (v = 256 ∨ v = 257)
  | .outOfBounds .regIndex v =>
      8 ≤ v ∧ v ≤ 255 ∧ (∃ m, opc m = opAt s ∧ m ≠ .hlt ∧ m ≠ .ret) ∧
      (v = (s.mem.read (s.pc.toNat + 1)).toNat ∨
        (v = (s.mem.read (s.pc.toNat + 2)).toNat ∧
          (opAt s = opc .mul ∨ opAt s = opc .add ∨ opAt s = opc .cmp)))
  | .outOfBounds .returnAddr v => v = 256 ∧ opAt s = opc .call ∧ s.pc.toNat = 254
  | .outOfBounds .stackAddr v =>
      ((opAt s = opc .push ∨ opAt s = opc .call) ∧ s.x[7].toNat ≤ Config.stackLimit.toNat ∧
        v = (s.x[7].toNat : Int) - 1) ∨
      (v = 256 ∧ opAt s = opc .pop ∧ PopPassesTop (s.mem.read (s.pc.toNat + 1)) s) ∨
      (v = 256 ∧ opAt s = opc .ret ∧ s.x[7].toNat = 255)
  | .outOfBounds .nextFetch v =>
      v = 256 ∧ s.pc.toNat + opLength (opAt s) = 256 ∧
      opAt s ≠ opc .hlt ∧ opAt s ≠ opc .call ∧ opAt s ≠ opc .ret ∧ opAt s ≠ opc .jmp ∧
      (opAt s = opc .jeq → s.fl.e = false) ∧ (opAt s = opc .jne → s.fl.e = true)
  | .unsupportedOperation _ => False

end Sys2Proof.Claims

open Sys2Proof Sys2Proof.Machine Sys2Proof.Claims

/-! ### The instructions -/

/-- HLT (40_dispatcher_hlt_unknown.md section 3): RUN <- HALTED and PC + 1, or PC unchanged at 255, where it halts without a
fault (the spec's decision D9, log 13); the only instruction that reaches HALTED; and nothing happens after it, which the
model writes as a step to the same state (the model's reading, log 5). -/
def Obligations.HltHaltsAndNothingFollows : Prop :=
  (∀ s : State, s.pc.toNat ≤ 254 → exec .hlt s = .next { s with run := .halted, pc := s.pc + 1 }) ∧
  (∀ s : State, s.pc.toNat = 255 → exec .hlt s = .next { s with run := .halted }) ∧
  (∀ (i : Instr) (s t : State), exec i s = .next t → s.run ≠ .halted → t.run = .halted → i = .hlt) ∧
  (∀ s t : State, exec .hlt s = .next t → ∀ k, Host.Core.run core k t = .next t) ∧
  FetchedAs1 (opc .hlt) .hlt

/-- LDI (41_load_output.md R90): x[a] <- imm, PC + 3, with every fault the rule lists. The NextFetch clause
is in R90's own list (the spec's decision D9, log 13); the value of OPC(LDI) is in Machine/Opcodes.lean (log 1). -/
def Obligations.LdiLoadsItsImmediate : Prop :=
  (∀ (a imm : Byte) (s : State) (r : Fin 8), a.toNat = r.val →
    (s.pc.toNat + 3 ≤ 255 → exec (.ldi a imm) s = .next { s with x := s.x.set r imm, pc := s.pc + 3 }) ∧
    OverrunsAfter (.ldi a imm) 3 s { s with x := s.x.set r imm }) ∧
  (∀ (a imm : Byte) (s : State), FaultsOnSelector (.ldi a imm) a s) ∧
  FetchedAs3 (opc .ldi) .ldi

/-- PRN (41_load_output.md section PRN): emit Print(x[a]), PC + 2. The value is unsigned (the spec's decision D5, log 11). -/
def Obligations.PrnPrintsItsRegister : Prop :=
  (∀ (a : Byte) (s : State) (r : Fin 8), a.toNat = r.val →
    (s.pc.toNat + 2 ≤ 255 →
      exec (.prn a) s = .next { s with out := s.out ++ [.print s.x[r].toNat], pc := s.pc + 2 }) ∧
    OverrunsAfter (.prn a) 2 s { s with out := s.out ++ [.print s.x[r].toNat] }) ∧
  (∀ (a : Byte) (s : State), FaultsOnSelector (.prn a) a s) ∧
  FetchedAs2 (opc .prn) .prn

/-- MUL (41_load_output.md section MUL): emit Print of the whole product, no register written, PC + 3. The product is
not truncated (the spec's decision D6) and unsigned (D5), log 11. -/
def Obligations.MulPrintsTheWholeProduct : Prop :=
  (∀ (a b : Byte) (s : State) (r q : Fin 8), a.toNat = r.val → b.toNat = q.val →
    (s.pc.toNat + 3 ≤ 255 →
      exec (.mul a b) s =
        .next { s with out := s.out ++ [.print (s.x[r].toNat * s.x[q].toNat)], pc := s.pc + 3 }) ∧
    OverrunsAfter (.mul a b) 3 s { s with out := s.out ++ [.print (s.x[r].toNat * s.x[q].toNat)] }) ∧
  (∀ (a b : Byte) (s : State), FaultsOnSelector (.mul a b) a s ∧
    (a.toNat < 8 → FaultsOnSelector (.mul a b) b s)) ∧
  FetchedAs3 (opc .mul) .mul

/-- ADD (42_alu.md section 2): x[a] <- (x[a] + x[b]) mod 256, no flag changes, PC + 3; with a = 7 it moves SP and
does not fault. The truncation is the spec's decision D27. -/
def Obligations.AddIsModulo256 : Prop :=
  (∀ (a b : Byte) (s : State) (r q : Fin 8), a.toNat = r.val → b.toNat = q.val → ∃ v : Byte,
    v.toNat = (s.x[r].toNat + s.x[q].toNat) % 256 ∧
    (s.pc.toNat + 3 ≤ 255 → exec (.add a b) s = .next { s with x := s.x.set r v, pc := s.pc + 3 }) ∧
    OverrunsAfter (.add a b) 3 s { s with x := s.x.set r v }) ∧
  (∀ (a b : Byte) (s : State), FaultsOnSelector (.add a b) a s ∧
    (a.toNat < 8 → FaultsOnSelector (.add a b) b s)) ∧
  FetchedAs3 (opc .add) .add

/-- CMP (42_alu.md section 3): all three flags at once, by the unsigned order of the two registers (the spec's decision
D5, log 11), exactly one true afterwards; nothing else but PC + 3. -/
def Obligations.CmpWritesAllThreeFlags : Prop :=
  (∀ (a b : Byte) (s : State) (r q : Fin 8), a.toNat = r.val → b.toNat = q.val → ∃ f : Flags,
    (f.l = true ↔ s.x[r].toNat < s.x[q].toNat) ∧ (f.g = true ↔ s.x[q].toNat < s.x[r].toNat) ∧
    (f.e = true ↔ s.x[r] = s.x[q]) ∧ f.exactlyOne = true ∧
    (s.pc.toNat + 3 ≤ 255 → exec (.cmp a b) s = .next { s with fl := f, pc := s.pc + 3 }) ∧
    OverrunsAfter (.cmp a b) 3 s { s with fl := f }) ∧
  (∀ (a b : Byte) (s : State), FaultsOnSelector (.cmp a b) a s ∧
    (a.toNat < 8 → FaultsOnSelector (.cmp a b) b s)) ∧
  FetchedAs3 (opc .cmp) .cmp

/-- PUSH (43_stack_call.md sections 1 and 2): SP <- SP - 1, then x[a] stored at the new SP, so that PUSH R7 stores the
decremented SP (the spec's decision D14, log 14); PC + 2; SP at the limit faults and nothing changes (D10, D11). -/
def Obligations.PushStoresBelowSp : Prop :=
  (∀ (a : Byte) (s : State) (r : Fin 8), a.toNat = r.val → Config.stackLimit.toNat < s.x[7].toNat →
    ∃ m, StoresByte s m (s.x[7].toNat - 1) (if r = 7 then s.x[7] - 1 else s.x[r]) ∧
      (s.pc.toNat + 2 ≤ 255 →
        exec (.push a) s = .next { s with x := s.x.set 7 (s.x[7] - 1), mem := m, pc := s.pc + 2 }) ∧
      OverrunsAfter (.push a) 2 s { s with x := s.x.set 7 (s.x[7] - 1), mem := m }) ∧
  (∀ (a : Byte) (s : State), a.toNat < 8 → s.x[7].toNat ≤ Config.stackLimit.toNat →
    exec (.push a) s = .next (oob s .stackAddr ((s.x[7].toNat : Int) - 1))) ∧
  (∀ (a : Byte) (s : State), FaultsOnSelector (.push a) a s) ∧
  FetchedAs2 (opc .push) .push

/-- POP (43_stack_call.md sections 1 and 3): x[a] <- MEM[SP], then SP <- SP + 1, so that POP R7 leaves the popped byte
plus 1 (the spec's decision D14, log 14); memory unchanged; PC + 2; a new SP of 256 faults and nothing changes (D10). -/
def Obligations.PopLoadsAtSp : Prop :=
  (∀ (a : Byte) (s : State) (r : Fin 8), a.toNat = r.val → r ≠ 7 → s.x[7].toNat ≤ 254 →
    (s.pc.toNat + 2 ≤ 255 →
      exec (.pop a) s = .next { s with
        x := (s.x.set r (s.mem.read s.x[7].toNat)).set 7 (s.x[7] + 1), pc := s.pc + 2 }) ∧
    OverrunsAfter (.pop a) 2 s { s with x := (s.x.set r (s.mem.read s.x[7].toNat)).set 7 (s.x[7] + 1) }) ∧
  (∀ (a : Byte) (s : State), a.toNat = 7 → (s.mem.read s.x[7].toNat).toNat ≤ 254 →
    (s.pc.toNat + 2 ≤ 255 →
      exec (.pop a) s = .next { s with x := s.x.set 7 (s.mem.read s.x[7].toNat + 1), pc := s.pc + 2 }) ∧
    OverrunsAfter (.pop a) 2 s { s with x := s.x.set 7 (s.mem.read s.x[7].toNat + 1) }) ∧
  (∀ (a : Byte) (s : State), PopPassesTop a s → exec (.pop a) s = .next (oob s .stackAddr 256)) ∧
  (∀ (a : Byte) (s : State), FaultsOnSelector (.pop a) a s) ∧
  FetchedAs2 (opc .pop) .pop

/-- CALL (43_stack_call.md section 4): SP <- SP - 1, PC + 2 stored at the new SP, PC <- x[a], so that CALL R7 jumps to
the new SP (the spec's decision D14, log 14); a return address above 255 faults first (D12), then SP at the limit. -/
def Obligations.CallStoresReturnAddress : Prop :=
  (∀ (a : Byte) (s : State) (r : Fin 8), a.toNat = r.val → s.pc.toNat ≤ 253 →
    Config.stackLimit.toNat < s.x[7].toNat →
    ∃ m, StoresByte s m (s.x[7].toNat - 1) (s.pc + 2) ∧
      exec (.call a) s = .next { s with
        x := s.x.set 7 (s.x[7] - 1), mem := m, pc := if r = 7 then s.x[7] - 1 else s.x[r] }) ∧
  (∀ (a : Byte) (s : State), a.toNat < 8 → 254 ≤ s.pc.toNat →
    exec (.call a) s = .next (oob s .returnAddr ((s.pc.toNat + 2 : Nat) : Int))) ∧
  (∀ (a : Byte) (s : State), a.toNat < 8 → s.pc.toNat ≤ 253 → s.x[7].toNat ≤ Config.stackLimit.toNat →
    exec (.call a) s = .next (oob s .stackAddr ((s.x[7].toNat : Int) - 1))) ∧
  (∀ (a : Byte) (s : State), FaultsOnSelector (.call a) a s) ∧
  FetchedAs2 (opc .call) .call

/-- RET (43_stack_call.md R115): PC <- MEM[SP], SP <- SP + 1; SP = 255 faults and nothing changes
(rule R114, the spec's decision D10, log 16); fine at address 255. -/
def Obligations.RetPopsThePc : Prop :=
  (∀ s : State, s.x[7].toNat ≤ 254 →
    exec .ret s = .next { s with pc := s.mem.read s.x[7].toNat, x := s.x.set 7 (s.x[7] + 1) }) ∧
  (∀ s : State, s.x[7].toNat = 255 → exec .ret s = .next (oob s .stackAddr 256)) ∧
  FetchedAs1 (opc .ret) .ret

/-- JMP (44_jump.md R125): PC <- x[a], at every PC; never NextFetch. A selector above 7 faults (the
spec's decision D13, log 12). -/
def Obligations.JmpSetsThePc : Prop :=
  (∀ (a : Byte) (s : State) (r : Fin 8), a.toNat = r.val → exec (.jmp a) s = .next { s with pc := s.x[r] }) ∧
  (∀ (a : Byte) (s : State), FaultsOnSelector (.jmp a) a s) ∧
  FetchedAs2 (opc .jmp) .jmp

/-- JEQ (44_jump.md section JEQ): jumps when FL.E is true, else PC + 2. The selector is checked in both cases (the
spec's decision D13, log 12). -/
def Obligations.JeqJumpsOnEqual : Prop :=
  (∀ (a : Byte) (s : State) (r : Fin 8), a.toNat = r.val → s.fl.e = true →
    exec (.jeq a) s = .next { s with pc := s.x[r] }) ∧
  (∀ (a : Byte) (s : State), a.toNat < 8 → s.fl.e = false →
    (s.pc.toNat + 2 ≤ 255 → exec (.jeq a) s = .next { s with pc := s.pc + 2 }) ∧
    OverrunsAfter (.jeq a) 2 s s) ∧
  (∀ (a : Byte) (s : State), FaultsOnSelector (.jeq a) a s) ∧
  FetchedAs2 (opc .jeq) .jeq

/-- JNE (44_jump.md R127): jumps when FL.E is false, also while no flag is set, else PC + 2. The selector
is checked in both cases (the spec's decision D13, log 12), and NextFetch is the spec's decision D9 (log 13). -/
def Obligations.JneJumpsOnNotEqual : Prop :=
  (∀ (a : Byte) (s : State) (r : Fin 8), a.toNat = r.val → s.fl.e = false →
    exec (.jne a) s = .next { s with pc := s.x[r] }) ∧
  (∀ (a : Byte) (s : State), a.toNat < 8 → s.fl.e = true →
    (s.pc.toNat + 2 ≤ 255 → exec (.jne a) s = .next { s with pc := s.pc + 2 }) ∧
    OverrunsAfter (.jne a) 2 s s) ∧
  (∀ (a : Byte) (s : State), FaultsOnSelector (.jne a) a s) ∧
  FetchedAs2 (opc .jne) .jne

/-- UNKNOWN (40_dispatcher_hlt_unknown.md R77): any byte that is none of the 13 values emits Diag(op) and goes on with
PC + 1; at address 255 the diagnostic is kept and NextFetch follows (rule R75, the spec's decision D9, log 13). -/
def Obligations.UnknownOpcodeIsDiagnosed : Prop :=
  (∀ (op : Byte) (s : State),
    (s.pc.toNat + 1 ≤ 255 →
      exec (.unknown op) s = .next { s with out := s.out ++ [.diag op], pc := s.pc + 1 }) ∧
    OverrunsAfter (.unknown op) 1 s { s with out := s.out ++ [.diag op] }) ∧
  (∀ op : Byte, (∀ m, opc m ≠ op) → FetchedAs1 op (.unknown op))

/-! ### Encoding -/

/-- Decode and encode agree (30_encoding.md sections 1 to 3): every well-formed instruction, with every operand byte,
is decoded from its own bytes, whatever follows them. -/
def Obligations.DecodeOfEncode : Prop :=
  ∀ (i : Instr) (rest : List Byte), i.wellFormed = true → decode (encode i ++ rest) = .ok (i, rest)

/-- The other direction: what is decoded is well formed, and its encoding is the bytes it was read from. -/
def Obligations.EncodeOfDecode : Prop :=
  ∀ (bs rest : List Byte) (i : Instr), decode bs = .ok (i, rest) → i.wellFormed = true ∧ encode i ++ rest = bs

/-- Decoding is an exact match of the whole opcode byte (30_encoding.md R53): a byte of the table selects its
instruction, any other byte the unknown opcode, of length 1; the decoder answers with it or lacks operand bytes. -/
def Obligations.DecodingMatchesTheWholeByte : Prop :=
  ∀ (op : Byte) (rest : List Byte),
    (∀ m, opc m = op → lengthOf m ≤ rest.length + 1 →
      ∃ i, decode (op :: rest) = .ok (i, rest.drop (lengthOf m - 1)) ∧ mnemonicOf i = some m) ∧
    ((∀ m, opc m ≠ op) → decode (op :: rest) = .ok (.unknown op, rest))

/-- The opcode byte alone decides the length, 1 to 3 bytes (30_encoding.md R50): with that many bytes there, exactly they
are consumed, opcode first, then the operands in ascending order; with fewer, the rejection names the length. -/
def Obligations.OpcodeDecidesTheLength : Prop :=
  ∀ (op : Byte) (rest : List Byte), ∃ len, 1 ≤ len ∧ len ≤ 3 ∧
    (∀ m, opc m = op → len = lengthOf m) ∧ ((∀ m, opc m ≠ op) → len = 1) ∧
    (len ≤ rest.length + 1 →
      ∃ i, decode (op :: rest) = .ok (i, rest.drop (len - 1)) ∧ encode i = (op :: rest).take len) ∧
    (rest.length + 1 < len → decode (op :: rest) = .error (.truncated len (rest.length + 1)))

/-- One word of each instruction, written out from the bit patterns of 30_encoding.md section 3 and the formats of its
section 1, decodes to it. The opcode values are the spec's, from general knowledge (D1, log 1). -/
def Obligations.WrittenOutWordsDecode : Prop :=
  decode [0b00000001] = .ok (.hlt, []) ∧
  decode [0b10000010, 0, 8] = .ok (.ldi 0 8, []) ∧
  decode [0b01000111, 7] = .ok (.prn 7, []) ∧
  decode [0b10100010, 0, 1] = .ok (.mul 0 1, []) ∧
  decode [0b10100000, 3, 5] = .ok (.add 3 5, []) ∧
  decode [0b01000101, 2] = .ok (.push 2, []) ∧
  decode [0b01000110, 6] = .ok (.pop 6, []) ∧
  decode [0b01010000, 1] = .ok (.call 1, []) ∧
  decode [0b00010001] = .ok (.ret, []) ∧
  decode [0b10100111, 4, 200] = .ok (.cmp 4 200, []) ∧
  decode [0b01010100, 2] = .ok (.jmp 2, []) ∧
  decode [0b01010101, 255] = .ok (.jeq 255, []) ∧
  decode [0b01010110, 3] = .ok (.jne 3, []) ∧
  decode [0b11000011, 5, 6] = .ok (.unknown 0xC3, [5, 6])

/-! ### The step -/

/-- A step runs the decoded instruction (40_dispatcher_hlt_unknown.md section 1): when the bytes from PC up, all in
memory, decode to `i`, a running machine's step is `exec i` at that state. -/
def Obligations.StepRunsTheDecodedInstruction : Prop :=
  ∀ (s : State) (bs : List Byte) (i : Instr), s.run = .running → s.pc.toNat + bs.length ≤ 256 →
    (∀ k, (h : k < bs.length) → s.mem.read (s.pc.toNat + k) = bs[k]) → decode bs = .ok (i, []) →
    step s = exec i s

/-- Operand fetch (40_dispatcher_hlt_unknown.md section 1): an instruction whose last byte lies beyond address 255 faults
before any effect; one whose bytes all lie in memory is executed, also in the last two cells, since bytes it does
not have are not read (the spec's decision D8, log 12). -/
def Obligations.OnlyOwnBytesAreFetched : Prop :=
  ∀ s : State, s.run = .running → ∃ len, (∀ m, opc m = opAt s → len = lengthOf m) ∧
    ((∀ m, opc m ≠ opAt s) → len = 1) ∧
    (255 < s.pc.toNat + len - 1 →
      step s = .next (oob s .operandFetch ((s.pc.toNat + len - 1 : Nat) : Int))) ∧
    (s.pc.toNat + len - 1 ≤ 255 → ∃ i, step s = exec i s ∧ (encode i).length = len ∧
      ∀ k, (h : k < (encode i).length) → (encode i)[k] = s.mem.read (s.pc.toNat + k))

/-- A halted or faulted machine takes no step, for ever (40_dispatcher_hlt_unknown.md R71); the model writes "no step" as a
step to the same state (log 5). -/
def Obligations.StoppedMachineStaysAsItIs : Prop :=
  ∀ s : State, s.run ≠ .running → ∀ k, Host.Core.run core k s = .next s

/-- The step is total and deterministic (40_dispatcher_hlt_unknown.md R78): a running machine has exactly one next state,
with zero or one event more in the Sink stream. -/
def Obligations.RunningStepIsTotal : Prop :=
  ∀ s : State, s.run = .running → ∃ t, step s = .next t ∧ (∀ u, step s = .next u → u = t) ∧
    (t.out = s.out ∨ ∃ e, t.out = s.out ++ [e])

/-! ### Invariants -/

/-- Every step keeps the invariant: memory canonical and within 0..255, at most one flag true, only events and fault
causes the spec lists, and never UnsupportedOperation (10_state.md section 9, 60_exceptions.md section 2). -/
def Obligations.StepKeepsInv : Prop :=
  ∀ s t : State, s.Inv → step s = .next t → t.Inv

/-- The invariant holds after reset, for all contents of registers 0 to 6 and every canonical memory, so at State.reset. -/
def Obligations.ResetMeetsInv : Prop :=
  (∀ (gpr : Vector Byte 7) (mem : Memory), mem.wf = true → (State.resetWith gpr mem).Inv) ∧ State.reset.Inv

/-- Once exactly one flag is true every step leaves exactly one true, and a CMP that raises neither OperandFetch nor
RegIndex makes it so (10_state.md section 9). -/
def Obligations.ExactlyOneFlagAfterCmp : Prop :=
  ∀ s t : State, step s = .next t →
    (s.fl.exactlyOne = true → t.fl.exactlyOne = true) ∧
    (s.run = .running → opAt s = opc .cmp → s.pc.toNat ≤ 253 → (s.mem.read (s.pc.toNat + 1)).toNat < 8 →
      (s.mem.read (s.pc.toNat + 2)).toNat < 8 → t.fl.exactlyOne = true)

/-! ### Rules over all instructions -/

/-- The flags (10_state.md section 3): only CMP writes them, all three at once whatever they were, and not when it faults
on a selector; only JEQ and JNE read them, and of them only FL.E. That CMP's order is the unsigned one is the spec's
decision D5 (42_alu.md section 3, log 11). -/
def Obligations.FlagsOnlyByCmpAndConditionalJumps : Prop :=
  (∀ s t : State, step s = .next t → opAt s ≠ opc .cmp → t.fl = s.fl) ∧
  (∀ (i : Instr) (s t : State), exec i s = .next t → (∀ a b, i ≠ .cmp a b) → t.fl = s.fl) ∧
  (∀ (a b : Byte) (s t : State), exec (.cmp a b) s = .next t →
    (∀ r q : Fin 8, a.toNat = r.val → b.toNat = q.val →
      t.fl = ⟨decide (s.x[r].toNat < s.x[q].toNat), decide (s.x[q].toNat < s.x[r].toNat), s.x[r] == s.x[q]⟩) ∧
    (8 ≤ a.toNat ∨ 8 ≤ b.toNat → t.fl = s.fl)) ∧
  (∀ (i : Instr) (s : State) (f g : Flags) (t : State),
    f.e = g.e ∨ (∀ a, i ≠ .jeq a ∧ i ≠ .jne a) → exec i { s with fl := f } = .next t →
    ∃ u, exec i { s with fl := g } = .next u ∧ { u with fl := t.fl } = t)

/-- Who reads and writes which register (10_state.md section 1): a register that changes is one the instruction writes,
and the value of a register the instruction does not read has no influence on anything else. -/
def Obligations.RegistersReadAndWritten : Prop :=
  (∀ (i : Instr) (s t : State) (r : Fin 8), exec i s = .next t → ¬ WritesReg i r → t.x[r] = s.x[r]) ∧
  (∀ (i : Instr) (s t : State) (r : Fin 8) (v : Byte), exec i s = .next t → ¬ ReadsReg i r →
    ∃ u, exec i { s with x := s.x.set r v } = .next u ∧ { u with x := t.x } = t ∧
      (∀ q : Fin 8, q ≠ r → u.x[q] = t.x[q]) ∧ (u.x[r] = t.x[r] ∨ u.x[r] = v))

/-- PC after each instruction that does not fault (10_state.md section 2): by its own length or set directly, never both.
CALL reads its operand register after the decrement, so that CALL R7 jumps to the new SP: the spec's decision D14 (log 14). -/
def Obligations.PcAfterEachInstruction : Prop :=
  ∀ (i : Instr) (s t : State), exec i s = .next t → ¬ t.endedBadly → PcAfter i s t

/-- RUN (10_state.md section 4): from RUNNING to HALTED exactly by executing HLT, and no way out of HALTED or FAULTED.
FAULTED is the spec's own third state (decision D7). -/
def Obligations.RunStateTransitions : Prop :=
  ∀ s t : State, step s = .next t →
    (s.run = .running → (t.endedWell ↔ opAt s = opc .hlt)) ∧
    (s.endedWell ∨ s.endedBadly → t = s)

/-- Every fault but NextFetch changes nothing but RUN (60_exceptions.md section 3); NextFetch keeps PC and has the effects
the same instruction has at PC = 0, where its successor fits (the spec's decisions D7 and D9, log 13 and log 16). -/
def Obligations.FaultsArePrecise : Prop :=
  ∀ (s t : State) (c : Cause), s.run = .running → step s = .next t → t.run = .faulted c →
    ((∀ v, c ≠ .outOfBounds .nextFetch v) → t = { s with run := .faulted c }) ∧
    ((∃ v, c = .outOfBounds .nextFetch v) → ∃ i u, step s = exec i s ∧ exec i { s with pc := 0 } = .next u ∧
      u.run = .running ∧ t = { u with pc := s.pc, run := .faulted c })

/-- The complete list of causes (60_exceptions.md section 2): which instruction raises which, when, and with which value:
NextFetch where PC + L is 256 and no jump is taken, StackAddr of POP and RET where the new SP would be 256.
Kind and value are the spec's own way of recording it (decision D26). -/
def Obligations.FaultCausesAreTheListed : Prop :=
  ∀ (s t : State) (c : Cause), s.run = .running → step s = .next t → t.run = .faulted c → RaisedWhen s c

/-- UnsupportedOperation (60_exceptions.md section 2): raised for an ALU selector that is neither ADD nor CMP, with no state
change but RUN; no step of any running machine raises it. The selectors that the ALU does not implement, and the byte
they carry, are the model's own form (the spec's decision D23, log 17). -/
def Obligations.UnsupportedOperationIsNeverRaised : Prop :=
  (∀ (code a b : Byte) (s : State), a.toNat < 8 → b.toNat < 8 →
    aluInstr (.other code) a b s = { s with run := .faulted (.unsupportedOperation (.other code)) }) ∧
  (∀ (s t : State) (sel : AluSel), s.run = .running → step s = .next t →
    t.run ≠ .faulted (.unsupportedOperation sel))

/-- Memory changes only where PUSH and CALL store, at SP - 1 (10_state.md section 5, 20_memory.md section 1). -/
def Obligations.OnlyPushAndCallStore : Prop :=
  ∀ (i : Instr) (s t : State) (b : Nat), exec i s = .next t → t.mem.read b ≠ s.mem.read b →
    (∃ a, i = .push a ∨ i = .call a) ∧ Config.stackLimit.toNat < s.x[7].toNat ∧ b = s.x[7].toNat - 1

/-- Memory is read only by the fetch of the instruction's own bytes and, at SP, by POP and RET (10_state.md section 5,
20_memory.md section 1): the content of any other cell has no influence on a step. -/
def Obligations.OnlyFetchPopAndRetRead : Prop :=
  ∀ (s t : State) (b : Nat) (v : Byte), step s = .next t →
    (b < s.pc.toNat ∨ s.pc.toNat + opLength (opAt s) ≤ b) →
    (b = s.x[7].toNat → opAt s ≠ opc .pop ∧ opAt s ≠ opc .ret) →
    ∃ u, step { s with mem := s.mem.write b v } = .next u ∧ { u with mem := t.mem } = t ∧
      ∀ c, c ≠ b → u.mem.read c = t.mem.read c

/-- The Sink stream only grows, by PRN, MUL and the unknown opcode, with the number or byte each emits (10_state.md
section 6; the event stream is the spec's decision D16, log 10). -/
def Obligations.SinkEventsByInstruction : Prop :=
  ∀ (i : Instr) (s t : State), exec i s = .next t → t.out ≠ s.out → ∃ e, t.out = s.out ++ [e] ∧
    ((∃ (a : Byte) (r : Fin 8), i = .prn a ∧ a.toNat = r.val ∧ e = .print s.x[r].toNat) ∨
     (∃ (a b : Byte) (r q : Fin 8), i = .mul a b ∧ a.toNat = r.val ∧ b.toNat = q.val ∧
       e = .print (s.x[r].toNat * s.x[q].toNat)) ∨
     (∃ op, i = .unknown op ∧ e = .diag op))

/-- No instruction reads the Sink stream (10_state.md section 6): with other events before, everything else of the next
state is the same. -/
def Obligations.SinkStreamIsNeverRead : Prop :=
  ∀ (s t : State) (o : List Event), step s = .next t →
    step { s with out := o ++ s.out } = .next { t with out := o ++ t.out }

/-- The order of the checks in a step (60_exceptions.md section 4, the spec's decision D15): OperandFetch, RegIndex of
`a`, RegIndex of `b`, ReturnAddr, StackAddr of PUSH, CALL or POP, and NextFetch only when none of them applies. -/
def Obligations.FaultPriority : Prop :=
  ∀ (s t : State) (m : Mnemonic), s.run = .running → step s = .next t → opAt s = opc m → m ≠ .hlt → m ≠ .ret →
    if 255 < s.pc.toNat + lengthOf m - 1 then
      t.run = .faulted (.outOfBounds .operandFetch ((s.pc.toNat + lengthOf m - 1 : Nat) : Int))
    else if 8 ≤ (s.mem.read (s.pc.toNat + 1)).toNat then
      t.run = .faulted (.outOfBounds .regIndex ((s.mem.read (s.pc.toNat + 1)).toNat : Int))
    else if (m = .mul ∨ m = .add ∨ m = .cmp) ∧ 8 ≤ (s.mem.read (s.pc.toNat + 2)).toNat then
      t.run = .faulted (.outOfBounds .regIndex ((s.mem.read (s.pc.toNat + 2)).toNat : Int))
    else if m = .call ∧ s.pc.toNat = 254 then t.run = .faulted (.outOfBounds .returnAddr 256)
    else if (m = .push ∨ m = .call) ∧ s.x[7].toNat ≤ Config.stackLimit.toNat then
      t.run = .faulted (.outOfBounds .stackAddr ((s.x[7].toNat : Int) - 1))
    else if m = .pop ∧ PopPassesTop (s.mem.read (s.pc.toNat + 1)) s then
      t.run = .faulted (.outOfBounds .stackAddr 256)
    else t.run = .running ∨
      s.pc.toNat + lengthOf m = 256 ∧ t.run = .faulted (.outOfBounds .nextFetch 256)

/-- The ALU (42_alu.md section 1): ADD is the sum modulo 256, CMP the three flags of the unsigned order. -/
def Obligations.AluComputesSumAndOrder : Prop :=
  ∀ va vb : Byte,
    (∃ v, alu .add va vb = .ok (.value v) ∧ v.toNat = (va.toNat + vb.toNat) % 256) ∧
    (∃ f, alu .cmp va vb = .ok (.flags f) ∧ (f.l = true ↔ va < vb) ∧ (f.g = true ↔ vb < va) ∧
      (f.e = true ↔ va = vb))

/-! ### Reset and load -/

/-- Reset (10_state.md section 8): SP 0xF4, flags false, PC 0 (the spec's decision D2), RUNNING, OUT empty, and the two
open parameters as given; whatever the state was (D22). State.reset is the instance with zeros, the model's choice (log 2, log 3). -/
def Obligations.ResetState : Prop :=
  (∀ (gpr : Vector Byte 7) (mem : Memory) (s : State), ∃ t, t = hostReset gpr mem s ∧
    t.x[7] = 0xF4 ∧ (∀ k, (h : k < 7) → t.x[k] = gpr[k]) ∧ t.fl = ⟨false, false, false⟩ ∧ t.pc = 0 ∧
    t.run = .running ∧ t.out = [] ∧ t.mem = mem) ∧
  (∀ k, (h : k < 7) → State.reset.x[k] = 0) ∧ (∀ b, State.reset.mem.read b = 0) ∧
  State.reset = hostReset (Vector.replicate 7 0) [] State.reset

/-- The load (70_reset_and_hazards.md section 2): byte i of an image of at most 256 bytes goes to address i and no other
cell changes; a longer image fails with OutOfBounds(Load, 256) (the spec's decision D17, log 8). -/
def Obligations.LoadPlacesTheImage : Prop :=
  ∀ (img : List Byte) (s : State),
    (img.length ≤ 256 → ∃ m, load img s = .next { s with mem := m } ∧
      (∀ k, (h : k < img.length) → m.read k = img[k]) ∧ (∀ b, img.length ≤ b → m.read b = s.mem.read b) ∧
      (s.mem.wf = true → m.wf = true)) ∧
    (256 < img.length → load img s = .fault (.loadOutOfBounds 256))

/-- The launch state (70_reset_and_hazards.md section 2): reset, then the load, for every image of at most 256 bytes and
all contents of the open registers and cells. The first opcode byte fetched is image byte 0, that of the empty image
the byte that memory holds at address 0. -/
def Obligations.LaunchRunsTheFirstImageByte : Prop :=
  ∀ (gpr : Vector Byte 7) (mem : Memory) (img : List Byte), img.length ≤ 256 →
    ∃ s, launch gpr mem img = .next s ∧ s.run = .running ∧ s.pc = 0 ∧ s.fl = ⟨false, false, false⟩ ∧
      opAt s = img.headD (mem.read 0) ∧ s.x[7] = 0xF4 ∧ s.out = [] ∧
      (∀ k, (h : k < 7) → s.x[k] = gpr[k]) ∧ (∀ k, (h : k < img.length) → s.mem.read k = img[k]) ∧
      (∀ b, img.length ≤ b → s.mem.read b = mem.read b)

/-- The model's own placing of an instruction (log 9): where its bytes fit, the next step runs what the decoder reads. -/
def Obligations.PlacedWordIsExecuted : Prop :=
  ∀ (s : State) (nbits w : Nat) (i : Instr), s.pc.toNat ≤ 253 → decodeTableWord nbits w = some i →
    step (s.withFetchWord nbits w) = exec i (s.withFetchWord nbits w)

/-! ### Stack and self-modification -/

/-- Push then pop (43_stack_call.md section 6): SP is restored and the second register gets the value PUSH wrote, for
every first register and every second but SP; nothing else but PC and the stacked byte changes. -/
def Obligations.PushThenPop : Prop :=
  ∀ (a b : Byte) (r q : Fin 8) (s : State), a.toNat = r.val → b.toNat = q.val → q ≠ 7 →
    Config.stackLimit.toNat < s.x[7].toNat → s.pc.toNat + 4 ≤ 255 →
    ∃ t u, exec (.push a) s = .next t ∧ exec (.pop b) t = .next u ∧
      u.x = s.x.set q (if r = 7 then s.x[7] - 1 else s.x[r]) ∧ u.pc = s.pc + 4 ∧
      u.fl = s.fl ∧ u.run = s.run ∧ u.out = s.out ∧ ∀ c, c ≠ s.x[7].toNat - 1 → u.mem.read c = s.mem.read c

/-- Call then return (43_stack_call.md section 6): a subroutine that leaves SP and the stacked byte as it found them
returns to the instruction after the CALL, with SP as before it. -/
def Obligations.CallThenRet : Prop :=
  ∀ (a : Byte) (s : State), a.toNat < 8 → Config.stackLimit.toNat < s.x[7].toNat → s.pc.toNat ≤ 253 →
    ∃ t, exec (.call a) s = .next t ∧ ∀ u : State, u.x[7] = t.x[7] →
      u.mem.read u.x[7].toNat = t.mem.read t.x[7].toNat →
      ∃ w, exec .ret u = .next w ∧ w.pc.toNat = s.pc.toNat + 2 ∧ w.x[7] = s.x[7] ∧ w.run = u.run

/-- A store is seen by the next fetch (20_memory.md section 6): a PUSH whose slot is the byte after it puts the opcode
of the next step there, and a PUSH over its own opcode has still been executed. -/
def Obligations.StoreIsSeenByTheNextFetch : Prop :=
  ∀ (s : State) (r : Fin 8), s.run = .running → opAt s = opc .push →
    (s.mem.read (s.pc.toNat + 1)).toNat = r.val → r ≠ 7 → Config.stackLimit.toNat < s.x[7].toNat →
    s.pc.toNat + 2 ≤ 255 →
    ∃ t, step s = .next t ∧ t.pc.toNat = s.pc.toNat + 2 ∧ t.run = .running ∧
      (s.x[7].toNat - 1 = s.pc.toNat + 2 → opAt t = s.x[r] ∧
        (s.x[r] = opc .hlt → ∃ u, step t = .next u ∧ u.run = .halted)) ∧
      (s.x[7].toNat - 1 = s.pc.toNat → t.mem.read s.pc.toNat = s.x[r])

/-- The parameter STACK_LIMIT (43_stack_call.md section 1, the spec's decision D11): for every limit, PUSH and CALL
at SP <= limit fault and change nothing else; above it SP goes down by 1 and one byte is written, at SP - 1, so no cell
below the limit ever changes. The operand is read after the decrement (the spec's decision D14, log 14). -/
def Obligations.StackLimitBoundsTheStores : Prop :=
  (∀ (limit a : Byte) (s : State) (f : Byte → Byte → State → State), f = pushWith ∨ f = callWith → a.toNat < 8 →
    (s.x[7].toNat ≤ limit.toNat → s.pc.toNat ≤ 253 →
      f limit a s = oob s .stackAddr ((s.x[7].toNat : Int) - 1)) ∧
    (limit.toNat < s.x[7].toNat → s.pc.toNat ≤ 253 → (f limit a s).x[7] = s.x[7] - 1) ∧
    (∀ b, b < limit.toNat → (f limit a s).mem.read b = s.mem.read b)) ∧
  (∀ (limit a : Byte) (s : State) (r : Fin 8), a.toNat = r.val → limit.toNat < s.x[7].toNat →
    StoresByte s (pushWith limit a s).mem (s.x[7].toNat - 1) (if r = 7 then s.x[7] - 1 else s.x[r]) ∧
    (s.pc.toNat ≤ 253 → StoresByte s (callWith limit a s).mem (s.x[7].toNat - 1) (s.pc + 2)))
end

