-- ==== Sys2Proof/Laws/Decode.lean ====
section
/-! SUPPORT. The laws of the opcode table, the assembler of fields and the encoder. -/

namespace Sys2Proof

/-- The table OPC is read back exactly (30_encoding.md R53). -/
@[simp] theorem decodeOp_opc (m : Mnemonic) : decodeOp (opc m) = some m := by
  cases m <;> decide

theorem opc_of_decodeOp (op : Byte) (m : Mnemonic) (h : decodeOp op = some m) : opc m = op := by
  have := List.find?_some h
  simpa using this

@[simp] theorem opLength_opc (m : Mnemonic) : opLength (opc m) = 1 + m.format.operands := by
  simp [opLength]

theorem opLength_unknown (op : Byte) (h : decodeOp op = none) : opLength op = 1 := by
  simp [opLength, h]

theorem opLength_pos (op : Byte) : 1 ≤ opLength op := by
  unfold opLength; split <;> omega

theorem opLength_le (op : Byte) : opLength op ≤ 3 := by
  unfold opLength
  split
  · rename_i m _; cases m <;> decide
  · omega

end Sys2Proof
end

