-- ==== Sys2Proof/Laws/State.lean ====
section
/-! SUPPORT. What each update of the state does to each field, and what it does to a register read. -/

namespace Sys2Proof.Machine

variable (s : State)

@[simp] theorem State.setReg_mem (r : Fin 8) (v : Byte) : (s.setReg r v).mem = s.mem := rfl
@[simp] theorem State.setReg_x (r : Fin 8) (v : Byte) : (s.setReg r v).x = s.x.set r v := rfl
@[simp] theorem State.setReg_fl (r : Fin 8) (v : Byte) : (s.setReg r v).fl = s.fl := rfl
@[simp] theorem State.setReg_pc (r : Fin 8) (v : Byte) : (s.setReg r v).pc = s.pc := rfl
@[simp] theorem State.setReg_run (r : Fin 8) (v : Byte) : (s.setReg r v).run = s.run := rfl
@[simp] theorem State.setReg_out (r : Fin 8) (v : Byte) : (s.setReg r v).out = s.out := rfl

@[simp] theorem State.setSp_mem (v : Byte) : (s.setSp v).mem = s.mem := rfl
@[simp] theorem State.setSp_x (v : Byte) : (s.setSp v).x = s.x.set spIndex v := rfl
@[simp] theorem State.setSp_fl (v : Byte) : (s.setSp v).fl = s.fl := rfl
@[simp] theorem State.setSp_pc (v : Byte) : (s.setSp v).pc = s.pc := rfl
@[simp] theorem State.setSp_run (v : Byte) : (s.setSp v).run = s.run := rfl
@[simp] theorem State.setSp_out (v : Byte) : (s.setSp v).out = s.out := rfl

@[simp] theorem State.setPc_mem (v : Byte) : (s.setPc v).mem = s.mem := rfl
@[simp] theorem State.setPc_x (v : Byte) : (s.setPc v).x = s.x := rfl
@[simp] theorem State.setPc_fl (v : Byte) : (s.setPc v).fl = s.fl := rfl
@[simp] theorem State.setPc_pc (v : Byte) : (s.setPc v).pc = v := rfl
@[simp] theorem State.setPc_run (v : Byte) : (s.setPc v).run = s.run := rfl
@[simp] theorem State.setPc_out (v : Byte) : (s.setPc v).out = s.out := rfl

@[simp] theorem State.setFl_mem (f : Flags) : (s.setFl f).mem = s.mem := rfl
@[simp] theorem State.setFl_x (f : Flags) : (s.setFl f).x = s.x := rfl
@[simp] theorem State.setFl_fl (f : Flags) : (s.setFl f).fl = f := rfl
@[simp] theorem State.setFl_pc (f : Flags) : (s.setFl f).pc = s.pc := rfl
@[simp] theorem State.setFl_run (f : Flags) : (s.setFl f).run = s.run := rfl
@[simp] theorem State.setFl_out (f : Flags) : (s.setFl f).out = s.out := rfl

@[simp] theorem State.setRun_mem (r : RunState) : (s.setRun r).mem = s.mem := rfl
@[simp] theorem State.setRun_x (r : RunState) : (s.setRun r).x = s.x := rfl
@[simp] theorem State.setRun_fl (r : RunState) : (s.setRun r).fl = s.fl := rfl
@[simp] theorem State.setRun_pc (r : RunState) : (s.setRun r).pc = s.pc := rfl
@[simp] theorem State.setRun_run (r : RunState) : (s.setRun r).run = r := rfl
@[simp] theorem State.setRun_out (r : RunState) : (s.setRun r).out = s.out := rfl

@[simp] theorem State.emit_mem (e : Event) : (s.emit e).mem = s.mem := rfl
@[simp] theorem State.emit_x (e : Event) : (s.emit e).x = s.x := rfl
@[simp] theorem State.emit_fl (e : Event) : (s.emit e).fl = s.fl := rfl
@[simp] theorem State.emit_pc (e : Event) : (s.emit e).pc = s.pc := rfl
@[simp] theorem State.emit_run (e : Event) : (s.emit e).run = s.run := rfl
@[simp] theorem State.emit_out (e : Event) : (s.emit e).out = s.out ++ [e] := rfl

@[simp] theorem State.memWrite_mem (a v : Byte) : (s.memWrite a v).mem = s.mem.write a.toNat v := rfl
@[simp] theorem State.memWrite_x (a v : Byte) : (s.memWrite a v).x = s.x := rfl
@[simp] theorem State.memWrite_fl (a v : Byte) : (s.memWrite a v).fl = s.fl := rfl
@[simp] theorem State.memWrite_pc (a v : Byte) : (s.memWrite a v).pc = s.pc := rfl
@[simp] theorem State.memWrite_run (a v : Byte) : (s.memWrite a v).run = s.run := rfl
@[simp] theorem State.memWrite_out (a v : Byte) : (s.memWrite a v).out = s.out := rfl

@[simp] theorem raise_mem (c : Cause) : (raise c s).mem = s.mem := rfl
@[simp] theorem raise_x (c : Cause) : (raise c s).x = s.x := rfl
@[simp] theorem raise_fl (c : Cause) : (raise c s).fl = s.fl := rfl
@[simp] theorem raise_pc (c : Cause) : (raise c s).pc = s.pc := rfl
@[simp] theorem raise_run (c : Cause) : (raise c s).run = .faulted c := rfl
@[simp] theorem raise_out (c : Cause) : (raise c s).out = s.out := rfl

@[simp] theorem State.reg_setReg_self (r : Fin 8) (v : Byte) : (s.setReg r v).reg r = v := by
  simp [State.reg]

theorem State.reg_setReg (r q : Fin 8) (v : Byte) : (s.setReg r v).reg q = if r = q then v else s.reg q := by
  simp [State.reg, Vector.getElem_set, Fin.ext_iff]

@[simp] theorem State.sp_setReg_spIndex (v : Byte) : (s.setReg spIndex v).sp = v := State.reg_setReg_self ..

@[simp] theorem State.sp_setSp (v : Byte) : (s.setSp v).sp = v := State.reg_setReg_self ..

theorem State.reg_setSp (q : Fin 8) (v : Byte) : (s.setSp v).reg q = if spIndex = q then v else s.reg q :=
  State.reg_setReg ..

@[simp] theorem State.reg_setPc (v : Byte) (q : Fin 8) : (s.setPc v).reg q = s.reg q := rfl
@[simp] theorem State.sp_setPc (v : Byte) : (s.setPc v).sp = s.sp := rfl
@[simp] theorem State.reg_setFl (f : Flags) (q : Fin 8) : (s.setFl f).reg q = s.reg q := rfl
@[simp] theorem State.sp_setFl (f : Flags) : (s.setFl f).sp = s.sp := rfl
@[simp] theorem State.reg_setRun (r : RunState) (q : Fin 8) : (s.setRun r).reg q = s.reg q := rfl
@[simp] theorem State.sp_setRun (r : RunState) : (s.setRun r).sp = s.sp := rfl
@[simp] theorem State.reg_emit (e : Event) (q : Fin 8) : (s.emit e).reg q = s.reg q := rfl
@[simp] theorem State.sp_emit (e : Event) : (s.emit e).sp = s.sp := rfl
@[simp] theorem State.reg_memWrite (a v : Byte) (q : Fin 8) : (s.memWrite a v).reg q = s.reg q := rfl
@[simp] theorem State.sp_memWrite (a v : Byte) : (s.memWrite a v).sp = s.sp := rfl
@[simp] theorem State.reg_raise (c : Cause) (q : Fin 8) : (raise c s).reg q = s.reg q := rfl

end Sys2Proof.Machine
end

