-- ==== Sys2Proof/Laws/Ops.lean ====
section
/-! SUPPORT. One lemma for each shared operation that says everything it can do. -/

namespace Sys2Proof.Machine

theorem selector_of_lt (b : Byte) (h : b.toNat < 8) : selector b = some ⟨b.toNat, h⟩ := dif_pos h

theorem selector_eq_some (b : Byte) (r : Fin 8) : selector b = some r ↔ b.toNat = r.val := by
  unfold selector
  split
  · simp [Fin.ext_iff]
  · have := r.isLt
    simp; omega

theorem selector_eq_none (b : Byte) : selector b = none ↔ 8 ≤ b.toNat := by
  unfold selector
  split <;> simp <;> omega

/-- A valid selector: on with the register it names. -/
theorem withReg_valid (b : Byte) (s : State) (k : Fin 8 → State) (r : Fin 8) (h : b.toNat = r.val) :
    withReg b s k = k r := by
  simp [withReg, (selector_eq_some b r).mpr h]

/-- A selector above 7: the exception, on the state as it stands. -/
theorem withReg_invalid (b : Byte) (s : State) (k : Fin 8 → State) (h : 8 ≤ b.toNat) :
    withReg b s k = raise (.outOfBounds .regIndex (b.toNat : Int)) s := by
  simp [withReg, (selector_eq_none b).mpr h]

/-- Everything a register operand can do. -/
theorem withReg_cases (b : Byte) (s : State) (k : Fin 8 → State) :
    (∃ r : Fin 8, b.toNat = r.val ∧ withReg b s k = k r) ∨
    (8 ≤ b.toNat ∧ withReg b s k = raise (.outOfBounds .regIndex (b.toNat : Int)) s) := by
  by_cases h : b.toNat < 8
  · exact .inl ⟨⟨b.toNat, h⟩, rfl, withReg_valid b s k ⟨b.toNat, h⟩ rfl⟩
  · exact .inr ⟨by omega, withReg_invalid b s k (by omega)⟩

/-- Everything two register operands can do. -/
theorem withRegs_cases (a b : Byte) (s : State) (k : Fin 8 → Fin 8 → State) :
    (∃ r q : Fin 8, a.toNat = r.val ∧ b.toNat = q.val ∧ withRegs a b s k = k r q) ∨
    (8 ≤ a.toNat ∧ withRegs a b s k = raise (.outOfBounds .regIndex (a.toNat : Int)) s) ∨
    (a.toNat < 8 ∧ 8 ≤ b.toNat ∧ withRegs a b s k = raise (.outOfBounds .regIndex (b.toNat : Int)) s) := by
  unfold withRegs
  obtain ⟨r, ha, h⟩ | ⟨ha, h⟩ := withReg_cases a s fun r => withReg b s fun q => k r q
  · rw [h]
    obtain ⟨q, hb, h'⟩ | ⟨hb, h'⟩ := withReg_cases b s fun q => k r q
    · exact .inl ⟨r, q, ha, hb, h'⟩
    · exact .inr (.inr ⟨by omega, hb, h'⟩)
  · exact .inr (.inl ⟨ha, h⟩)

/-- Two valid selectors. -/
theorem withRegs_valid (a b : Byte) (s : State) (k : Fin 8 → Fin 8 → State) (r q : Fin 8) (ha : a.toNat = r.val)
    (hb : b.toNat = q.val) : withRegs a b s k = k r q := by
  rw [withRegs, withReg_valid a s _ r ha, withReg_valid b s _ q hb]

/-- Everything the range test can do. -/
theorem bounded_cases (kind : OobKind) (v : Nat) (s : State) (k : Byte → State) :
    (v ≤ 255 ∧ bounded kind v s k = k (trunc8 v)) ∨
    (255 < v ∧ bounded kind v s k = raise (.outOfBounds kind v) s) := by
  by_cases h : v ≤ 255
  · exact .inl ⟨h, if_pos h⟩
  · exact .inr ⟨by omega, if_neg h⟩

/-- Everything the sequential advance can do. -/
theorem advance_cases (len : Nat) (s : State) :
    (s.pc.toNat + len ≤ 255 ∧ advance len s = s.setPc (trunc8 (s.pc.toNat + len))) ∨
    (255 < s.pc.toNat + len ∧ s.run = .running ∧
      advance len s = raise (.outOfBounds .nextFetch ((s.pc.toNat + len : Nat) : Int)) s) ∨
    (255 < s.pc.toNat + len ∧ s.run ≠ .running ∧ advance len s = s) := by
  unfold advance
  by_cases h : s.pc.toNat + len ≤ 255
  · exact .inl ⟨h, if_pos h⟩
  · rw [if_neg h]
    by_cases hr : s.run = .running
    · exact .inr (.inl ⟨by omega, hr, if_pos hr⟩)
    · exact .inr (.inr ⟨by omega, hr, if_neg hr⟩)

/-- Everything the pre-decrement of PUSH and CALL can do. -/
theorem pushSlot_cases (limit : Byte) (s : State) (k : State → State) :
    (limit.toNat < s.sp.toNat ∧ pushSlot limit s k = k (s.setSp (trunc8 (s.sp.toNat - 1)))) ∨
    (s.sp.toNat ≤ limit.toNat ∧
      pushSlot limit s k = raise (.outOfBounds .stackAddr ((s.sp.toNat : Int) - 1)) s) := by
  by_cases h : s.sp.toNat ≤ limit.toNat
  · exact .inr ⟨h, if_pos h⟩
  · exact .inl ⟨by omega, if_neg h⟩

/-! The advance changes PC and RUN only. -/

@[simp] theorem advance_mem (len : Nat) (s : State) : (advance len s).mem = s.mem := by
  unfold advance; split <;> (try split) <;> rfl

@[simp] theorem advance_x (len : Nat) (s : State) : (advance len s).x = s.x := by
  unfold advance; split <;> (try split) <;> rfl

@[simp] theorem advance_fl (len : Nat) (s : State) : (advance len s).fl = s.fl := by
  unfold advance; split <;> (try split) <;> rfl

@[simp] theorem advance_out (len : Nat) (s : State) : (advance len s).out = s.out := by
  unfold advance; split <;> (try split) <;> rfl

@[simp] theorem advance_reg (len : Nat) (s : State) (r : Fin 8) : (advance len s).reg r = s.reg r := by
  simp only [State.reg, advance_x]

@[simp] theorem trunc8_toNat (v : Nat) : (trunc8 v).toNat = v % 256 := BitVec.toNat_ofNat ..

/-- Everything an ALU instruction can do with selectors 0 to 7. -/
theorem aluInstr_valid (sel : AluSel) (a b : Byte) (s : State) (r q : Fin 8) (ha : a.toNat = r.val)
    (hb : b.toNat = q.val) :
    aluInstr sel a b s =
      match alu sel (s.reg r) (s.reg q) with
      | .ok (.value v) => advance 3 (s.setReg r v)
      | .ok (.flags f) => advance 3 (s.setFl f)
      | .error c => raise c s :=
  withRegs_valid a b s _ r q ha hb

/-- Everything a conditional jump can do. -/
theorem jumpIf_cases (cond : Bool) (a : Byte) (s : State) :
    (∃ r : Fin 8, a.toNat = r.val ∧ cond = true ∧ jumpIf cond a s = s.setPc (s.reg r)) ∨
    (a.toNat < 8 ∧ cond = false ∧ jumpIf cond a s = advance 2 s) ∨
    (8 ≤ a.toNat ∧ jumpIf cond a s = raise (.outOfBounds .regIndex (a.toNat : Int)) s) := by
  unfold jumpIf
  obtain ⟨r, ha, h⟩ | ⟨ha, h⟩ := withReg_cases a s fun r => if cond then s.setPc (s.reg r) else advance 2 s
  · cases cond
    · exact .inr (.inl ⟨by omega, rfl, h⟩)
    · exact .inl ⟨r, ha, rfl, h⟩
  · exact .inr (.inr ⟨ha, h⟩)

end Sys2Proof.Machine
end

