-- ==== Sys2Proof/Laws/Exec.lean ====
section
/-! SUPPORT. Everything an instruction can do, said once: `Executes s i t` lists the outcomes, and
`exec_executes` says that there are no others. Claims over all instructions split on it and do not unfold the meanings. -/

namespace Sys2Proof.Machine

/-- The register selector bytes of an instruction, in the order they are checked (10_state.md R13). -/
def selectors : Instr → List Byte
  | .hlt | .ret | .unknown _ => []
  | .ldi a _ | .prn a | .push a | .pop a | .call a | .jmp a | .jeq a | .jne a => [a]
  | .mul a b | .add a b | .cmp a b => [a, b]

/-- The state between the pre-decrement of PUSH or CALL and its store (43_stack_call.md R111, R113). -/
def afterPreDecrement (s : State) : State := s.setSp (trunc8 (s.sp.toNat - 1))

/-- `t` is an outcome of instruction `i` from `s`. -/
inductive Executes (s : State) : Instr → State → Prop
  | hlt : Executes s .hlt (advance 1 (s.setRun .halted))
  | ldi (a imm : Byte) (r : Fin 8) (ha : a.toNat = r.val) : Executes s (.ldi a imm) (advance 3 (s.setReg r imm))
  | prn (a : Byte) (r : Fin 8) (ha : a.toNat = r.val) :
      Executes s (.prn a) (advance 2 (s.emit (.print (s.reg r).toNat)))
  | mul (a b : Byte) (r q : Fin 8) (ha : a.toNat = r.val) (hb : b.toNat = q.val) :
      Executes s (.mul a b) (advance 3 (s.emit (.print ((s.reg r).toNat * (s.reg q).toNat))))
  | add (a b : Byte) (r q : Fin 8) (ha : a.toNat = r.val) (hb : b.toNat = q.val) :
      Executes s (.add a b) (advance 3 (s.setReg r (trunc8 ((s.reg r).toNat + (s.reg q).toNat))))
  | cmp (a b : Byte) (r q : Fin 8) (ha : a.toNat = r.val) (hb : b.toNat = q.val) :
      Executes s (.cmp a b) (advance 3 (s.setFl (compareFlags (s.reg r) (s.reg q))))
  | push (a : Byte) (r : Fin 8) (ha : a.toNat = r.val) (hsp : Config.stackLimit.toNat < s.sp.toNat) :
      Executes s (.push a) (advance 2 ((afterPreDecrement s).memWrite (trunc8 (s.sp.toNat - 1))
        ((afterPreDecrement s).reg r)))
  | popOther (a : Byte) (r : Fin 8) (ha : a.toNat = r.val) (hr : r ≠ spIndex) (hsp : s.sp.toNat + 1 ≤ 255) :
      Executes s (.pop a) (advance 2 ((s.setReg r (s.memRead s.sp)).setSp (trunc8 (s.sp.toNat + 1))))
  | popSp (a : Byte) (ha : a.toNat = spIndex.val) (hv : (s.memRead s.sp).toNat + 1 ≤ 255) :
      Executes s (.pop a) (advance 2 (s.setSp (trunc8 ((s.memRead s.sp).toNat + 1))))
  | call (a : Byte) (r : Fin 8) (ha : a.toNat = r.val) (hpc : s.pc.toNat + 2 ≤ 255)
      (hsp : Config.stackLimit.toNat < s.sp.toNat) :
      Executes s (.call a) (((afterPreDecrement s).memWrite (trunc8 (s.sp.toNat - 1))
        (trunc8 (s.pc.toNat + 2))).setPc ((afterPreDecrement s).reg r))
  | ret (hsp : s.sp.toNat + 1 ≤ 255) :
      Executes s .ret ((s.setPc (s.memRead s.sp)).setSp (trunc8 (s.sp.toNat + 1)))
  | jmp (a : Byte) (r : Fin 8) (ha : a.toNat = r.val) : Executes s (.jmp a) (s.setPc (s.reg r))
  | jeqTaken (a : Byte) (r : Fin 8) (ha : a.toNat = r.val) (he : s.fl.e = true) :
      Executes s (.jeq a) (s.setPc (s.reg r))
  | jeqNotTaken (a : Byte) (ha : a.toNat < 8) (he : s.fl.e = false) : Executes s (.jeq a) (advance 2 s)
  | jneTaken (a : Byte) (r : Fin 8) (ha : a.toNat = r.val) (he : s.fl.e = false) :
      Executes s (.jne a) (s.setPc (s.reg r))
  | jneNotTaken (a : Byte) (ha : a.toNat < 8) (he : s.fl.e = true) : Executes s (.jne a) (advance 2 s)
  | unknown (op : Byte) : Executes s (.unknown op) (advance 1 (s.emit (.diag op)))
  | regIndex (i : Instr) (b : Byte) (hb : (selectors i).find? (fun b => decide (8 ≤ b.toNat)) = some b) :
      Executes s i (raise (.outOfBounds .regIndex (b.toNat : Int)) s)
  | returnAddr (a : Byte) (ha : a.toNat < 8) (hpc : 255 < s.pc.toNat + 2) :
      Executes s (.call a) (raise (.outOfBounds .returnAddr ((s.pc.toNat + 2 : Nat) : Int)) s)
  | pushAtLimit (a : Byte) (ha : a.toNat < 8) (hsp : s.sp.toNat ≤ Config.stackLimit.toNat) :
      Executes s (.push a) (raise (.outOfBounds .stackAddr ((s.sp.toNat : Int) - 1)) s)
  | callAtLimit (a : Byte) (ha : a.toNat < 8) (hpc : s.pc.toNat + 2 ≤ 255)
      (hsp : s.sp.toNat ≤ Config.stackLimit.toNat) :
      Executes s (.call a) (raise (.outOfBounds .stackAddr ((s.sp.toNat : Int) - 1)) s)
  | popOtherAtTop (a : Byte) (ha : a.toNat < 7) (hsp : s.sp.toNat = 255) :
      Executes s (.pop a) (raise (.outOfBounds .stackAddr 256) s)
  | popSpAtTop (a : Byte) (ha : a.toNat = 7) (hv : (s.memRead s.sp).toNat = 255) :
      Executes s (.pop a) (raise (.outOfBounds .stackAddr 256) s)
  | retAtTop (hsp : s.sp.toNat = 255) : Executes s .ret (raise (.outOfBounds .stackAddr 256) s)

/-- The outcomes of two register operands, for the instructions with two of them. -/
theorem executes_withRegs (s : State) (i : Instr) (a b : Byte) (k : Fin 8 → Fin 8 → State)
    (hi : selectors i = [a, b])
    (hk : ∀ r q : Fin 8, a.toNat = r.val → b.toNat = q.val → Executes s i (k r q)) :
    Executes s i (withRegs a b s k) := by
  obtain ⟨r, q, ha, hb, h⟩ | ⟨ha, h⟩ | ⟨ha, hb, h⟩ := withRegs_cases a b s k <;> rw [h]
  · exact hk r q ha hb
  · exact .regIndex i a (by simp [hi, ha])
  · exact .regIndex i b (by rw [hi, List.find?_cons_of_neg (by simpa using ha)]; simp [hb])

/-- The outcomes of one register operand, for the instructions with one. -/
theorem executes_withReg (s : State) (i : Instr) (a : Byte) (k : Fin 8 → State) (hi : selectors i = [a])
    (hk : ∀ r : Fin 8, a.toNat = r.val → Executes s i (k r)) : Executes s i (withReg a s k) := by
  obtain ⟨r, ha, h⟩ | ⟨ha, h⟩ := withReg_cases a s k <;> rw [h]
  · exact hk r ha
  · exact .regIndex i a (by simp [hi, ha])

/-- Every next state of an instruction is one of the listed outcomes. -/
theorem exec_executes (i : Instr) (s t : State) (h : exec i s = .next t) : Executes s i t := by
  cases i <;> cases h
  case hlt => exact .hlt
  case ldi a imm => exact executes_withReg s _ a _ rfl fun r ha => .ldi a imm r ha
  case prn a => exact executes_withReg s _ a _ rfl fun r ha => .prn a r ha
  case mul a b => exact executes_withRegs s _ a b _ rfl fun r q ha hb => .mul a b r q ha hb
  case add a b => exact executes_withRegs s _ a b _ rfl fun r q ha hb => .add a b r q ha hb
  case cmp a b => exact executes_withRegs s _ a b _ rfl fun r q ha hb => .cmp a b r q ha hb
  case push a =>
    refine executes_withReg s _ a _ rfl fun r ha => ?_
    obtain ⟨hsp, h⟩ | ⟨hsp, h⟩ := pushSlot_cases Config.stackLimit s
      fun s1 => advance 2 (s1.memWrite s1.sp (s1.reg r)) <;> rw [h]
    · simp only [State.sp_setSp]
      exact .push a r ha hsp
    · exact .pushAtLimit a (by omega) hsp
  case pop a =>
    refine executes_withReg s _ a _ rfl fun r ha => ?_
    dsimp only
    by_cases hr : r = spIndex
    · subst hr
      rw [if_pos rfl]
      obtain ⟨hv, h⟩ | ⟨hv, h⟩ := bounded_cases .stackAddr ((s.memRead s.sp).toNat + 1) s
        fun newSp => advance 2 ((s.setReg spIndex (s.memRead s.sp)).setSp newSp) <;> rw [h]
      · have hset : ∀ v w, (s.setReg spIndex v).setSp w = s.setSp w := fun v w => by
          simp [State.setSp, State.setReg]
        rw [hset]
        exact .popSp a ha hv
      · have hv : (s.memRead s.sp).toNat = 255 := by have := (s.memRead s.sp).isLt; omega
        rw [hv]
        exact .popSpAtTop a ha hv
    · rw [if_neg hr]
      obtain ⟨hsp, h⟩ | ⟨hsp, h⟩ := bounded_cases .stackAddr (s.sp.toNat + 1) s
        fun newSp => advance 2 ((s.setReg r (s.memRead s.sp)).setSp newSp) <;> rw [h]
      · exact .popOther a r ha hr hsp
      · have hsp : s.sp.toNat = 255 := by have := s.sp.isLt; omega
        rw [hsp]
        refine .popOtherAtTop a ?_ hsp
        have : r.val ≠ 7 := fun h => hr (Fin.ext h)
        omega
  case call a =>
    refine executes_withReg s _ a _ rfl fun r ha => ?_
    obtain ⟨hpc, h⟩ | ⟨hpc, h⟩ := bounded_cases .returnAddr (s.pc.toNat + 2) s
      fun ret => pushSlot Config.stackLimit s fun s1 => (s1.memWrite s1.sp ret).setPc (s1.reg r) <;> rw [h]
    · obtain ⟨hsp, h⟩ | ⟨hsp, h⟩ := pushSlot_cases Config.stackLimit s
        fun s1 => (s1.memWrite s1.sp (trunc8 (s.pc.toNat + 2))).setPc (s1.reg r) <;> rw [h]
      · simp only [State.sp_setSp]
        exact .call a r ha hpc hsp
      · exact .callAtLimit a (by omega) hpc hsp
    · exact .returnAddr a (by omega) hpc
  case ret =>
    obtain ⟨hsp, h⟩ | ⟨hsp, h⟩ := bounded_cases .stackAddr (s.sp.toNat + 1) s
      fun newSp => (s.setPc (s.memRead s.sp)).setSp newSp <;> rw [h]
    · exact .ret hsp
    · have hsp : s.sp.toNat = 255 := by have := s.sp.isLt; omega
      rw [hsp]
      exact .retAtTop hsp
  case jmp a => exact executes_withReg s _ a _ rfl fun r ha => .jmp a r ha
  case jeq a =>
    obtain ⟨r, ha, he, h⟩ | ⟨ha, he, h⟩ | ⟨ha, h⟩ := jumpIf_cases (condEqual s.fl) a s <;> rw [h]
    · exact .jeqTaken a r ha he
    · exact .jeqNotTaken a ha he
    · exact .regIndex _ a (by simp [selectors, ha])
  case jne a =>
    obtain ⟨r, ha, he, h⟩ | ⟨ha, he, h⟩ | ⟨ha, h⟩ := jumpIf_cases (condNotEqual s.fl) a s <;> rw [h]
    · exact .jneTaken a r ha (by simpa [condNotEqual] using he)
    · exact .jneNotTaken a ha (by simpa [condNotEqual] using he)
    · exact .regIndex _ a (by simp [selectors, ha])
  case unknown op => exact .unknown op

theorem withRegs_invalid (a b : Byte) (s : State) (k : Fin 8 → Fin 8 → State) (v : Byte)
    (h : [a, b].find? (fun b => decide (8 ≤ b.toNat)) = some v) :
    withRegs a b s k = raise (.outOfBounds .regIndex (v.toNat : Int)) s := by
  obtain ⟨r, q, ha, hb, _⟩ | ⟨ha, h'⟩ | ⟨ha, hb, h'⟩ := withRegs_cases a b s k
  · have hr := r.isLt
    have hq := q.isLt
    simp [show ¬ 8 ≤ a.toNat by omega, show ¬ 8 ≤ b.toNat by omega] at h
  · simp only [List.find?_cons, ha, decide_true, Option.some.injEq] at h
    rw [h', h]
  · simp only [List.find?_cons, show ¬ 8 ≤ a.toNat by omega, decide_false, hb, decide_true, Option.some.injEq] at h
    rw [h', h]

theorem withReg_find (a : Byte) (s : State) (k : Fin 8 → State) (v : Byte)
    (h : [a].find? (fun b => decide (8 ≤ b.toNat)) = some v) :
    withReg a s k = raise (.outOfBounds .regIndex (v.toNat : Int)) s := by
  have hv : a = v := (by simpa using List.mem_of_find?_eq_some h : v = a).symm
  have h8 : 8 ≤ v.toNat := by simpa using List.find?_some h
  rw [hv, withReg_invalid v s k h8]

/-- Every listed outcome is the next state of its instruction. -/
theorem executes_exec (i : Instr) (s t : State) (h : Executes s i t) : exec i s = .next t := by
  cases h
  case regIndex b hb =>
    cases i
    case hlt => cases hb
    case ret => cases hb
    case unknown => cases hb
    case mul => exact congrArg _ (withRegs_invalid _ _ s _ b hb)
    case add => exact congrArg _ (withRegs_invalid _ _ s _ b hb)
    case cmp => exact congrArg _ (withRegs_invalid _ _ s _ b hb)
    all_goals exact congrArg _ (withReg_find _ s _ b hb)
  case hlt => rfl
  case ldi a imm r ha => exact congrArg _ (withReg_valid a s _ r ha)
  case prn a r ha => exact congrArg _ (withReg_valid a s _ r ha)
  case mul a b r q ha hb => exact congrArg _ (withRegs_valid a b s _ r q ha hb)
  case add a b r q ha hb => exact congrArg _ (withRegs_valid a b s _ r q ha hb)
  case cmp a b r q ha hb => exact congrArg _ (withRegs_valid a b s _ r q ha hb)
  case push a r ha hsp =>
    refine congrArg _ ((withReg_valid a s _ r ha).trans ?_)
    rw [pushSlot, if_neg (by omega), State.sp_setSp]; rfl
  case popOther a r ha hr hsp =>
    refine congrArg _ ((withReg_valid a s _ r ha).trans ?_)
    dsimp only
    rw [if_neg hr, bounded, if_pos hsp]
  case popSp a ha hv =>
    refine congrArg _ ((withReg_valid a s _ spIndex ha).trans ?_)
    dsimp only
    rw [if_pos rfl, bounded, if_pos hv]
    simp [State.setSp, State.setReg]
  case call a r ha hpc hsp =>
    refine congrArg _ ((withReg_valid a s _ r ha).trans ?_)
    rw [bounded, if_pos hpc, pushSlot, if_neg (by omega), State.sp_setSp]; rfl
  case ret hsp => exact congrArg _ (if_pos hsp)
  case jmp a r ha => exact congrArg _ (withReg_valid a s _ r ha)
  case jeqTaken a r ha he => exact congrArg _ ((withReg_valid a s _ r ha).trans (if_pos he))
  case jeqNotTaken a ha he =>
    exact congrArg _ ((withReg_valid a s _ ⟨a.toNat, ha⟩ rfl).trans (if_neg (by simp [condEqual, he])))
  case jneTaken a r ha he =>
    exact congrArg _ ((withReg_valid a s _ r ha).trans (if_pos (by simp [condNotEqual, he])))
  case jneNotTaken a ha he =>
    exact congrArg _ ((withReg_valid a s _ ⟨a.toNat, ha⟩ rfl).trans (if_neg (by simp [condNotEqual, he])))
  case unknown op => rfl
  case returnAddr a ha hpc =>
    exact congrArg _ ((withReg_valid a s _ ⟨a.toNat, ha⟩ rfl).trans (if_neg (by omega)))
  case pushAtLimit a ha hsp =>
    exact congrArg _ ((withReg_valid a s _ ⟨a.toNat, ha⟩ rfl).trans (if_pos hsp))
  case callAtLimit a ha hpc hsp =>
    exact congrArg _ ((withReg_valid a s _ ⟨a.toNat, ha⟩ rfl).trans ((if_pos hpc).trans (if_pos hsp)))
  case popOtherAtTop a ha hsp =>
    refine congrArg _ ((withReg_valid a s _ ⟨a.toNat, by omega⟩ rfl).trans ?_)
    have hne : (⟨a.toNat, by omega⟩ : Fin 8) ≠ spIndex := fun h => by
      have := congrArg Fin.val h
      simp only [spIndex] at this
      exact absurd this (by omega)
    dsimp only
    rw [if_neg hne, hsp]; rfl
  case popSpAtTop a ha hv =>
    refine congrArg _ ((withReg_valid a s _ spIndex ha).trans ?_)
    dsimp only
    rw [if_pos rfl, hv]; rfl
  case retAtTop hsp =>
    simp only [exec, execRet, hsp]; rfl

/-- The next state of an instruction is exactly its listed outcome. -/
theorem exec_next_iff (i : Instr) (s t : State) : exec i s = .next t ↔ Executes s i t :=
  ⟨exec_executes i s t, executes_exec i s t⟩

end Sys2Proof.Machine
end

