-- ==== Sys2Proof/Laws/Memory.lean ====
section
/-! SUPPORT. The laws of memory: a read after a write, and every memory operation keeps the canonical form. -/

namespace Sys2Proof.Machine

theorem Memory.lookup_cons (b k : Nat) (w : Byte) (m : Memory) :
    List.lookup b ((k, w) :: m) = if b = k then some w else List.lookup b m := by
  rw [List.lookup_cons]
  by_cases h : b = k
  · simp [h]
  · rw [if_neg h, beq_eq_false_iff_ne.mpr h]

theorem Memory.lookup_insert (a : Nat) (v : Byte) (m : Memory) (h : ∀ c ∈ m, c.1 ≠ a) (b : Nat) :
    List.lookup b (Memory.insert a v m) = if b = a then some v else List.lookup b m := by
  induction m with
  | nil => exact Memory.lookup_cons b a v []
  | cons c rest ih =>
    obtain ⟨k, w⟩ := c
    have hk : k ≠ a := h _ (List.mem_cons_self ..)
    have ih := ih fun c hc => h c (List.mem_cons_of_mem _ hc)
    unfold Memory.insert
    split
    · exact Memory.lookup_cons b a v _
    · rw [Memory.lookup_cons, Memory.lookup_cons, ih]
      split <;> split <;> simp_all

theorem Memory.lookup_erase (m : Memory) (a b : Nat) :
    List.lookup b (m.erase a) = if b = a then none else List.lookup b m := by
  induction m with
  | nil => simp [Memory.erase]
  | cons c rest ih =>
    obtain ⟨k, w⟩ := c
    simp only [Memory.erase] at ih ⊢
    rw [Memory.lookup_cons]
    by_cases hk : k = a
    · subst hk
      rw [List.filter_cons_of_neg (by simp), ih]
      split <;> rfl
    · rw [List.filter_cons_of_pos (by simp [hk]), Memory.lookup_cons, ih]
      split <;> split <;> simp_all

theorem Memory.mem_erase_ne (m : Memory) (a : Nat) : ∀ c ∈ m.erase a, c.1 ≠ a := by
  intro c hc
  simpa using (List.mem_filter.mp hc).2

/-- A read after a write (20_memory.md R31, R39): the value at the written address, and every other cell as it was. -/
theorem Memory.read_write (m : Memory) (a : Nat) (v : Byte) (b : Nat) :
    (m.write a v).read b = if b = a then v else m.read b := by
  unfold Memory.read Memory.write
  split
  · rename_i hv
    rw [Memory.lookup_erase]
    by_cases hb : b = a <;> simp [hb, hv]
  · rw [Memory.lookup_insert _ _ _ (m.mem_erase_ne a), Memory.lookup_erase]
    by_cases hb : b = a <;> simp [hb]

@[simp] theorem Memory.read_write_self (m : Memory) (a : Nat) (v : Byte) : (m.write a v).read a = v := by
  simp [Memory.read_write]

theorem Memory.wf_cons (c : Host.Cell) (m : Memory) :
    Memory.wf (c :: m) = true ↔
      c.1 < Config.memSize ∧ c.2 ≠ Config.unlistedByte ∧ (∀ d ∈ m, c.1 < d.1) ∧ m.wf = true := by
  obtain ⟨a, v⟩ := c
  simp [Memory.wf, and_assoc]

theorem Memory.wf_erase (m : Memory) (a : Nat) (h : m.wf = true) : (m.erase a).wf = true := by
  induction m with
  | nil => exact h
  | cons c rest ih =>
    obtain ⟨h1, h2, h3, h4⟩ := (Memory.wf_cons c rest).mp h
    by_cases hk : c.1 = a
    · simpa [Memory.erase, hk] using ih h4
    · have : Memory.erase (c :: rest) a = c :: Memory.erase rest a := by simp [Memory.erase, hk]
      rw [this, Memory.wf_cons]
      exact ⟨h1, h2, fun d hd => h3 d (List.mem_filter.mp hd).1, ih h4⟩

theorem Memory.mem_insert (a : Nat) (v : Byte) (m : Memory) (d : Host.Cell) :
    d ∈ Memory.insert a v m ↔ d = (a, v) ∨ d ∈ m := by
  induction m with
  | nil => simp [Memory.insert]
  | cons c rest ih =>
    unfold Memory.insert
    split
    · simp
    · simp only [List.mem_cons, ih]; tauto

theorem Memory.wf_insert (a : Nat) (v : Byte) (m : Memory) (h : m.wf = true) (ha : a < Config.memSize)
    (hv : v ≠ Config.unlistedByte) (hm : ∀ c ∈ m, c.1 ≠ a) : (Memory.insert a v m).wf = true := by
  induction m with
  | nil => exact (Memory.wf_cons (a, v) []).mpr ⟨ha, hv, by simp, h⟩
  | cons c rest ih =>
    obtain ⟨h1, h2, h3, h4⟩ := (Memory.wf_cons c rest).mp h
    have hc : c.1 ≠ a := hm c (List.mem_cons_self ..)
    unfold Memory.insert
    split
    · rename_i hlt
      refine (Memory.wf_cons _ _).mpr ⟨ha, hv, fun d hd => ?_, h⟩
      obtain rfl | hd := List.mem_cons.mp hd
      · exact hlt
      · exact Nat.lt_trans hlt (h3 d hd)
    · rename_i hlt
      refine (Memory.wf_cons _ _).mpr ⟨h1, h2, fun d hd => ?_, ih h4 fun d hd => hm d (List.mem_cons_of_mem _ hd)⟩
      obtain rfl | hd := (Memory.mem_insert a v rest d).mp hd
      · change c.1 < a; omega
      · exact h3 d hd

/-- A write keeps the canonical form. -/
theorem Memory.wf_write (m : Memory) (a : Nat) (v : Byte) (h : m.wf = true) (ha : a < Config.memSize) :
    (m.write a v).wf = true := by
  unfold Memory.write
  split
  · exact Memory.wf_erase m a h
  · rename_i hv
    exact Memory.wf_insert a v _ (Memory.wf_erase m a h) ha hv (m.mem_erase_ne a)

/-- Storing a list of bytes keeps the canonical form, where they fit below the end of memory. -/
theorem Memory.wf_store (bs : List Byte) (m : Memory) (a : Nat) (h : m.wf = true)
    (ha : a + bs.length ≤ Config.memSize) : (m.store a bs).wf = true := by
  induction bs generalizing m a with
  | nil => exact h
  | cons v vs ih =>
    simp only [List.length_cons] at ha
    exact ih _ _ (Memory.wf_write m a v h (by omega)) (by omega)

/-- A read after a store of a list of bytes: byte i at address a + i, every other cell as it was. -/
theorem Memory.read_store (bs : List Byte) (m : Memory) (a b : Nat) :
    (m.store a bs).read b = if a ≤ b ∧ b < a + bs.length then bs.getD (b - a) 0 else m.read b := by
  induction bs generalizing m a with
  | nil => rw [if_neg (by simp)]; rfl
  | cons v vs ih =>
    simp only [Memory.store, ih, List.length_cons, Memory.read_write]
    by_cases hb : b = a
    · subst hb
      rw [if_neg (by omega), if_pos rfl, if_pos (by omega)]
      simp
    · by_cases hin : a + 1 ≤ b ∧ b < a + 1 + vs.length
      · rw [if_pos hin, if_pos (by omega)]
        have : b - a = (b - (a + 1)) + 1 := by omega
        rw [this, List.getD_cons_succ]
      · rw [if_neg hin, if_neg hb, if_neg (by omega)]

end Sys2Proof.Machine
end

