-- ==== Sys2Proof/Laws/PerInstr.lean ====
section
/-! SUPPORT. Statements about every instruction as syntax, one lemma per constructor. -/

namespace Sys2Proof.Laws.EncodeLength

/-- The encoding has the length its first byte decides, 1 to 3 bytes (30_encoding.md R50). -/
def Statement (i : Instr) : Prop :=
  i.wellFormed = true → ∃ op rest, encode i = op :: rest ∧ (encode i).length = opLength op ∧ (encode i).length ≤ 3

theorem hlt : Statement .hlt := fun _ => ⟨_, _, rfl, by simp [encode]; rfl, by decide⟩
theorem ldi (a imm : Byte) : Statement (.ldi a imm) := fun _ => ⟨_, _, rfl, by simp [encode]; rfl, by simp [encode]⟩
theorem prn (a : Byte) : Statement (.prn a) := fun _ => ⟨_, _, rfl, by simp [encode]; rfl, by simp [encode]⟩
theorem mul (a b : Byte) : Statement (.mul a b) := fun _ => ⟨_, _, rfl, by simp [encode]; rfl, by simp [encode]⟩
theorem add (a b : Byte) : Statement (.add a b) := fun _ => ⟨_, _, rfl, by simp [encode]; rfl, by simp [encode]⟩
theorem push (a : Byte) : Statement (.push a) := fun _ => ⟨_, _, rfl, by simp [encode]; rfl, by simp [encode]⟩
theorem pop (a : Byte) : Statement (.pop a) := fun _ => ⟨_, _, rfl, by simp [encode]; rfl, by simp [encode]⟩
theorem call (a : Byte) : Statement (.call a) := fun _ => ⟨_, _, rfl, by simp [encode]; rfl, by simp [encode]⟩
theorem ret : Statement .ret := fun _ => ⟨_, _, rfl, by simp [encode]; rfl, by decide⟩
theorem cmp (a b : Byte) : Statement (.cmp a b) := fun _ => ⟨_, _, rfl, by simp [encode]; rfl, by simp [encode]⟩
theorem jmp (a : Byte) : Statement (.jmp a) := fun _ => ⟨_, _, rfl, by simp [encode]; rfl, by simp [encode]⟩
theorem jeq (a : Byte) : Statement (.jeq a) := fun _ => ⟨_, _, rfl, by simp [encode]; rfl, by simp [encode]⟩
theorem jne (a : Byte) : Statement (.jne a) := fun _ => ⟨_, _, rfl, by simp [encode]; rfl, by simp [encode]⟩

theorem unknown (op : Byte) : Statement (.unknown op) := fun h =>
  ⟨_, _, rfl, (opLength_unknown op (by simpa [Instr.wellFormed] using h)).symm, by simp [encode]⟩

end Sys2Proof.Laws.EncodeLength
end

