-- ==== Sys2Proof/Laws/Step.lean ====
section
/-! SUPPORT. What a fetch and a step can do. -/

namespace Sys2Proof.Machine

/-- Everything a fetch can answer (40_dispatcher_hlt_unknown.md R72, R73). -/
theorem fetch_cases (s : State) :
    (s.pc.toNat + opLength (s.memRead s.pc) - 1 ≤ 255 ∧
      fetch s = .ok (assemble (s.memRead s.pc) (operandByte s (opLength (s.memRead s.pc)) 1)
        (operandByte s (opLength (s.memRead s.pc)) 2))) ∨
    (255 < s.pc.toNat + opLength (s.memRead s.pc) - 1 ∧
      fetch s = .error (.outOfBounds .operandFetch ((s.pc.toNat + opLength (s.memRead s.pc) - 1 : Nat) : Int))) := by
  unfold fetch
  by_cases h : s.pc.toNat + opLength (s.memRead s.pc) - 1 ≤ 255
  · exact .inl ⟨h, if_pos h⟩
  · exact .inr ⟨by omega, if_neg h⟩

/-- Everything a step can do. -/
theorem step_cases (s : State) :
    (s.run = .running ∧ ∃ i, fetch s = .ok i ∧ step s = exec i s) ∨
    (s.run = .running ∧ ∃ c, fetch s = .error c ∧ step s = .next (raise c s)) ∨
    (s.run ≠ .running ∧ step s = .next s) := by
  unfold step
  cases hr : s.run with
  | running =>
    cases hf : fetch s with
    | ok i => exact .inl ⟨rfl, i, rfl, rfl⟩
    | error c => exact .inr (.inl ⟨rfl, c, rfl, rfl⟩)
  | halted => exact .inr (.inr ⟨nofun, rfl⟩)
  | faulted c => exact .inr (.inr ⟨nofun, rfl⟩)

/-- A run of k + 1 steps is a step and a run of k steps, for any machine behind the host's interface. -/
theorem run_succ_of_step (M : Host.Core) (k : Nat) (s t : M.State) (h : M.step s = .next t) :
    M.run (k + 1) s = M.run k t := by
  simp [Host.Core.run, h]

/-- Every meaning answers a next state: no instruction of this machine faults or refuses outside its own states. -/
theorem exec_next (i : Instr) (s : State) : ∃ t, exec i s = .next t := by
  cases i <;> exact ⟨_, rfl⟩

end Sys2Proof.Machine
end

