-- ==== Sys2Proof/Tests/Slice0.lean ====
section
/-! SUPPORT. Tests. The expected results are those of 95_test_vectors.md (the vector is named in each test) and of
the bit patterns of 30_encoding.md; the witnesses show states and operands that meet the hypotheses of the statements. -/

namespace Sys2Proof.Tests

open Sys2Proof.Machine Sys2Proof.Claims

/-- The state of a vector: reset, the bytes at an address, PC at that address (95_test_vectors.md section 2). -/
def vec (pc : Byte) (bytes : List Byte) : State :=
  { State.reset with pc := pc, mem := Memory.store [] pc.toNat bytes }

/-- The next state of an outcome. -/
def after : Host.Outcome State Fault Refusal → Option State
  | .next s => some s
  | .fault _ | .refused _ => none

/-- The state with a fault of a kind and a value, nothing else changed. -/
def faultedAt (s : State) (kind : OobKind) (v : Int) : State := { s with run := .faulted (.outOfBounds kind v) }

/-- Reset but for PC and SP. -/
def at_ (pc sp : Byte) : State := { State.reset with pc := pc, x := State.reset.x.set 7 sp }

/-! ### Well-formedness: the one check, UNKNOWN with a byte of the opcode table -/

theorem test_wf_refuses_unknown_with_ldi_byte : (Instr.unknown 0x82).wellFormed = false := by decide

theorem test_wf_refuses_unknown_with_each_table_byte :
    ∀ m ∈ Mnemonic.all, (Instr.unknown (opc m)).wellFormed = false := by decide

theorem test_wf_accepts_unknown_byte : (Instr.unknown 0x00).wellFormed = true := by decide

theorem test_wf_accepts_selector_above_seven : (Instr.ldi 8 1).wellFormed = true := by decide

/-! ### Decoding: words written out from 30_encoding.md (opcode bits, then the operand bytes of the format) -/

theorem test_decode_hlt : decode [0b00000001, 9] = .ok (.hlt, [9]) := by rfl
theorem test_decode_ldi : decode [0b10000010, 0b00000011, 0b11111111] = .ok (.ldi 3 255, []) := by rfl
theorem test_decode_prn : decode [0b01000111, 0b11001000] = .ok (.prn 200, []) := by rfl
theorem test_decode_mul : decode [0b10100010, 0b00000010, 0b00000101] = .ok (.mul 2 5, []) := by rfl
theorem test_decode_add : decode [0b10100000, 0b00000111, 0b00000000] = .ok (.add 7 0, []) := by rfl
theorem test_decode_push : decode [0b01000101, 0b00000111] = .ok (.push 7, []) := by rfl
theorem test_decode_pop : decode [0b01000110, 0b00000001] = .ok (.pop 1, []) := by rfl
theorem test_decode_call : decode [0b01010000, 0b00000110] = .ok (.call 6, []) := by rfl
theorem test_decode_ret : decode [0b00010001, 9] = .ok (.ret, [9]) := by rfl
theorem test_decode_cmp : decode [0b10100111, 0b00000001, 0b00000110] = .ok (.cmp 1 6, []) := by rfl
theorem test_decode_jmp : decode [0b01010100, 0b00000101] = .ok (.jmp 5, []) := by rfl
theorem test_decode_jeq : decode [0b01010101, 0b00000010] = .ok (.jeq 2, []) := by rfl
theorem test_decode_jne : decode [0b01010110, 0b00000100] = .ok (.jne 4, []) := by rfl
theorem test_decode_unknown : decode [0b00000000, 1] = .ok (.unknown 0, [1]) := by rfl

theorem test_decode_rejects_nothing : decode [] = .error .noBytes := by rfl
theorem test_decode_rejects_short_ldi : decode [0x82, 0] = .error (.truncated 3 2) := by rfl

/-- The table's numbering: LDI R3, 0x12 has 0x82 in bits 7..0, the selector in bits 15..8, the immediate in 23..16. -/
theorem test_table_word_ldi : decodeTableWord 24 0x120382 = some (.ldi 3 0x12) := by decide

/-- The bits from `nbits` up are zero. -/
theorem test_table_word_short : decodeTableWord 8 0x120382 = some (.ldi 0 0) := by decide

theorem test_fetch_word_runs_first :
    after (step (State.reset.withFetchWord 24 0x120382)) =
      some { State.reset.withFetchWord 24 0x120382 with x := State.reset.x.set 3 0x12, pc := 3 } := by decide

/-! ### Vectors -/

theorem test_reset_V_RST_1 :
    State.reset.x[7] = 0xF4 ∧ State.reset.fl = ⟨false, false, false⟩ ∧ State.reset.pc = 0 ∧
      State.reset.run = .running ∧ State.reset.out = [] := by decide

theorem test_load_V_RST_2 :
    after (load [0x82, 0, 8] State.reset) = some { State.reset with mem := [(0, 0x82), (2, 8)] } := by decide

theorem test_load_V_RST_3 : load (List.replicate 257 1) State.reset = .fault (.loadOutOfBounds 256) :=
  if_neg (by rw [List.length_replicate]; decide)

theorem test_hlt_V_HLT_1 :
    after (step (vec 9 [0x01])) = some { vec 9 [0x01] with run := .halted, pc := 10 } := by decide

theorem test_hlt_V_HLT_2 :
    after (step (vec 255 [0x01])) = some { vec 255 [0x01] with run := .halted } := by decide

theorem test_stopped_V_HLT_3 :
    after (step { vec 9 [0x47, 0] with run := .halted }) = some { vec 9 [0x47, 0] with run := .halted } := by decide

theorem test_unknown_V_UNK_2 :
    after (step (vec 10 [0xC3, 5, 6])) = some { vec 10 [0xC3, 5, 6] with out := [.diag 195], pc := 11 } := by decide

theorem test_unknown_V_UNK_3 :
    after (step (vec 255 [0xFF])) =
      some (faultedAt { vec 255 [0xFF] with out := [.diag 255] } .nextFetch 256) := by decide

theorem test_fetch_V_FET_1 :
    after (step (vec 254 [0x82, 0])) = some (faultedAt (vec 254 [0x82, 0]) .operandFetch 256) := by decide

theorem test_fetch_V_FET_2 :
    after (step (vec 255 [0x47])) = some (faultedAt (vec 255 [0x47]) .operandFetch 256) := by decide

theorem test_fetch_V_FET_3 :
    after (step (vec 255 [0x82])) = some (faultedAt (vec 255 [0x82]) .operandFetch 257) := by decide

theorem test_ldi_V_LDI_2 :
    after (step (vec 0 [0x82, 7, 0x80])) =
      some { vec 0 [0x82, 7, 0x80] with x := State.reset.x.set 7 128, pc := 3 } := by decide

theorem test_ldi_V_LDI_4 :
    after (step (vec 253 [0x82, 0, 7])) =
      some (faultedAt { vec 253 [0x82, 0, 7] with x := State.reset.x.set 0 7 } .nextFetch 256) := by decide

theorem test_prn_V_PRN_2 :
    after (step ((vec 254 [0x47, 0]).setReg 0 255)) =
      some (faultedAt { (vec 254 [0x47, 0]).setReg 0 255 with out := [.print 255] } .nextFetch 256) := by decide

theorem test_prn_V_PRN_3 :
    after (step (vec 0 [0x47, 0xC8])) = some (faultedAt (vec 0 [0x47, 0xC8]) .regIndex 200) := by decide

theorem test_mul_V_MUL_2 :
    after (step (((vec 0 [0xA2, 0, 1]).setReg 0 255).setReg 1 255)) =
      some { ((vec 0 [0xA2, 0, 1]).setReg 0 255).setReg 1 255 with out := [.print 65025], pc := 3 } := by decide

theorem test_mul_V_MUL_5 :
    after (step (vec 0 [0xA2, 0x0C, 9])) = some (faultedAt (vec 0 [0xA2, 0x0C, 9]) .regIndex 12) := by decide

theorem test_add_V_ADD_1 :
    after (step (((vec 6 [0xA0, 0, 1]).setReg 0 200).setReg 1 100)) =
      some { ((vec 6 [0xA0, 0, 1]).setReg 0 44).setReg 1 100 with pc := 9 } := by decide

theorem test_add_V_ADD_5 :
    after (step ((vec 0 [0xA0, 7, 0]).setReg 0 20)) =
      some { ((vec 0 [0xA0, 7, 0]).setReg 0 20).setReg 7 8 with pc := 3 } := by decide

theorem test_cmp_V_CMP_4 :
    after (step ((((vec 0 [0xA7, 0, 1]).setReg 0 128).setReg 1 127).setFl ⟨true, false, false⟩)) =
      some { ((vec 0 [0xA7, 0, 1]).setReg 0 128).setReg 1 127 with fl := ⟨false, true, false⟩, pc := 3 } := by decide

theorem test_cmp_V_CMP_6 :
    after (step (((vec 0 [0xA7, 4, 4]).setReg 4 77).setFl ⟨false, true, false⟩)) =
      some { (vec 0 [0xA7, 4, 4]).setReg 4 77 with fl := ⟨false, false, true⟩, pc := 3 } := by decide

theorem test_push_V_PUSH_2 :
    after (step (vec 0 [0x45, 7])) =
      some { vec 0 [0x45, 7] with x := State.reset.x.set 7 0xF3, mem := [(0, 0x45), (1, 7), (0xF3, 0xF3)], pc := 2 } := by
  decide

theorem test_push_V_PUSH_3 :
    after (step ((at_ 0 0).setReg 0 9 |>.placeAtPc [0x45, 0])) =
      some (faultedAt ((at_ 0 0).setReg 0 9 |>.placeAtPc [0x45, 0]) .stackAddr (-1)) := by decide

theorem test_push_limit_V_PUSH_5 :
    pushWith 0x20 0 ((at_ 0 0x20).setReg 0 9) = faultedAt ((at_ 0 0x20).setReg 0 9) .stackAddr 31 := by decide

theorem test_push_limit_V_PUSH_6 :
    pushWith 0x20 0 ((at_ 0 0x21).setReg 0 9) =
      { (at_ 0 0x20).setReg 0 9 with mem := [(0x20, 9)], pc := 2 } := by decide

theorem test_pop_V_POP_4 :
    after (exec (.pop 7) ((at_ 0 0xF3).memWrite 0xF3 0x50)) =
      some { (at_ 0 0x51).memWrite 0xF3 0x50 with pc := 2 } := by decide

theorem test_pop_V_POP_6 :
    after (exec (.pop 7) ((at_ 0 255).memWrite 255 3)) = some { (at_ 0 4).memWrite 255 3 with pc := 2 } := by decide

theorem test_call_V_CALL_2 :
    after (step ((vec 254 [0x50, 1]).setReg 1 11)) =
      some (faultedAt ((vec 254 [0x50, 1]).setReg 1 11) .returnAddr 256) := by decide

theorem test_call_V_CALL_5 :
    after (step (vec 32 [0x50, 7])) =
      some { (vec 32 [0x50, 7]).setReg 7 0xF3 with mem := [(32, 0x50), (33, 7), (0xF3, 34)], pc := 0xF3 } := by decide

theorem test_ret_V_RET_2 :
    after (exec .ret ((at_ 0 255).memWrite 255 8)) =
      some (faultedAt ((at_ 0 255).memWrite 255 8) .stackAddr 256) := by decide

theorem test_ret_V_RET_3 :
    after (exec .ret ((at_ 255 0xF3).memWrite 0xF3 8)) = some ((at_ 8 0xF4).memWrite 0xF3 8) := by decide

theorem test_jmp_V_JMP_2 :
    after (step ((vec 254 [0x54, 2]).setReg 2 20)) = some { (vec 254 [0x54, 2]).setReg 2 20 with pc := 20 } := by decide

theorem test_jmp_V_JMP_4 :
    after (step (vec 0 [0x54, 9])) = some (faultedAt (vec 0 [0x54, 9]) .regIndex 9) := by decide

theorem test_jeq_V_JEQ_4 :
    after (step ((vec 12 [0x55, 9]).setFl ⟨true, false, false⟩)) =
      some (faultedAt ((vec 12 [0x55, 9]).setFl ⟨true, false, false⟩) .regIndex 9) := by decide

theorem test_jeq_V_JEQ_6 :
    after (step (((vec 254 [0x55, 2]).setReg 2 40).setFl ⟨false, false, true⟩)) =
      some { ((vec 254 [0x55, 2]).setReg 2 40).setFl ⟨false, false, true⟩ with pc := 40 } := by decide

theorem test_jne_V_JNE_2 :
    after (step (((vec 20 [0x56, 3]).setReg 3 12).setFl ⟨false, false, true⟩)) =
      some { ((vec 20 [0x56, 3]).setReg 3 12).setFl ⟨false, false, true⟩ with pc := 22 } := by decide

theorem test_jne_V_JNE_3 :
    after (step ((vec 20 [0x56, 3]).setReg 3 12)) = some { (vec 20 [0x56, 3]).setReg 3 12 with pc := 12 } := by decide

/-- An ALU selector that is neither ADD nor CMP (42_alu.md R101). -/
theorem test_alu_unsupported : alu (.other 3) 1 2 = .error (.unsupportedOperation (.other 3)) := by rfl

/-! ### Witnesses: states and operands that meet the hypotheses of the statements -/

/-- The hypotheses on the sequential advance of an instruction of length `len`: the last PC that fits, and the first
that does not. -/
def AdvanceMet (len : Nat) : Prop :=
  (∃ s : State, s.pc.toNat + len = 255 ∧ s.run = .running) ∧
  (∃ s : State, 255 < s.pc.toNat + len ∧ s.run = .running)

theorem advance_met (len : Nat) (h : len = 1 ∨ len = 2 ∨ len = 3) : AdvanceMet len := by
  rcases h with rfl | rfl | rfl
  · exact ⟨⟨at_ 254 1, by decide⟩, ⟨at_ 255 1, by decide⟩⟩
  · exact ⟨⟨at_ 253 1, by decide⟩, ⟨at_ 254 1, by decide⟩⟩
  · exact ⟨⟨at_ 252 1, by decide⟩, ⟨at_ 253 1, by decide⟩⟩

/-- The hypotheses on a selector byte: the last valid one, and the first that is not. -/
def SelectorMet : Prop :=
  (∃ (a : Byte) (r : Fin 8), a.toNat = r.val ∧ r = 7) ∧ (∃ a : Byte, 8 ≤ a.toNat ∧ a.toNat < 9)

theorem selector_met : SelectorMet := ⟨⟨7, 7, by decide⟩, ⟨8, by decide⟩⟩

/-- The hypotheses of FetchedAs1, FetchedAs2 and FetchedAs3: the opcode at the addresses where the clauses meet. -/
def FetchMet (op : Byte) : Prop :=
  ∀ pc ∈ [(253 : Byte), 254, 255], ∃ s : State, s.run = .running ∧ s.mem.read s.pc.toNat = op ∧ s.pc = pc

theorem fetch_met (m : Mnemonic) : FetchMet (opc m) :=
  fun pc h => ⟨vec pc [opc m], by revert pc; cases m <;> decide⟩

theorem fetch_met_unknown : FetchMet 0xC3 ∧ ∀ m, opc m ≠ 0xC3 :=
  ⟨fun pc h => ⟨vec pc [0xC3], by revert pc; decide⟩, fun m => by cases m <;> decide⟩

/-- The hypotheses on SP: at the stack limit, just above it, the last SP that can grow, and the top of memory. -/
def StackMet : Prop :=
  ∀ a ∈ [(0 : Byte), 6, 7],
    (∃ s : State, a.toNat < 8 ∧ s.x[7].toNat = Config.stackLimit.toNat ∧ s.pc.toNat = 253) ∧
    (∃ s : State, a.toNat < 8 ∧ s.x[7].toNat = Config.stackLimit.toNat + 1 ∧ s.pc.toNat = 253) ∧
    (∃ s : State, a.toNat < 8 ∧ s.x[7].toNat = 254 ∧ (s.mem.read 254).toNat = 254) ∧
    (∃ s : State, a.toNat < 8 ∧ s.x[7].toNat = 255 ∧ (s.mem.read 255).toNat = 255)

theorem stack_met : StackMet :=
  fun a h => ⟨⟨at_ 253 0, by revert a; decide⟩, ⟨at_ 253 1, by revert a; decide⟩,
    ⟨(at_ 0 254).memWrite 254 254, by revert a; decide⟩, ⟨(at_ 0 255).memWrite 255 255, by revert a; decide⟩⟩

theorem witness_HltHaltsAndNothingFollows :
    (∃ s : State, s.pc.toNat = 254) ∧ (∃ s : State, s.pc.toNat = 255) ∧
    (∃ (i : Instr) (s t : State), exec i s = .next t ∧ s.run ≠ .halted ∧ t.run = .halted) ∧
    (∃ s t : State, exec .hlt s = .next t) ∧ FetchMet (opc .hlt) :=
  ⟨⟨at_ 254 1, by decide⟩, ⟨at_ 255 1, by decide⟩,
    ⟨.hlt, at_ 9 1, { at_ 10 1 with run := .halted }, rfl, by decide, rfl⟩,
    ⟨at_ 9 1, { at_ 10 1 with run := .halted }, rfl⟩, fetch_met _⟩

theorem witness_LdiLoadsItsImmediate : SelectorMet ∧ AdvanceMet 3 ∧ FetchMet (opc .ldi) :=
  ⟨selector_met, advance_met 3 (by decide), fetch_met _⟩

theorem witness_PrnPrintsItsRegister : SelectorMet ∧ AdvanceMet 2 ∧ FetchMet (opc .prn) :=
  ⟨selector_met, advance_met 2 (by decide), fetch_met _⟩

theorem witness_MulPrintsTheWholeProduct : SelectorMet ∧ AdvanceMet 3 ∧ FetchMet (opc .mul) :=
  ⟨selector_met, advance_met 3 (by decide), fetch_met _⟩

theorem witness_AddIsModulo256 : SelectorMet ∧ AdvanceMet 3 ∧ FetchMet (opc .add) :=
  ⟨selector_met, advance_met 3 (by decide), fetch_met _⟩

theorem witness_CmpWritesAllThreeFlags : SelectorMet ∧ AdvanceMet 3 ∧ FetchMet (opc .cmp) :=
  ⟨selector_met, advance_met 3 (by decide), fetch_met _⟩

theorem witness_PushStoresBelowSp :
    (∃ (a : Byte) (s : State) (r : Fin 8), a.toNat = r.val ∧ Config.stackLimit.toNat < s.x[7].toNat ∧
      s.pc.toNat + 2 = 255) ∧
    (∃ (a : Byte) (s : State) (r : Fin 8), a.toNat = r.val ∧ Config.stackLimit.toNat < s.x[7].toNat ∧
      255 < s.pc.toNat + 2 ∧ s.run = .running) ∧
    StackMet ∧ SelectorMet ∧ FetchMet (opc .push) :=
  ⟨⟨7, at_ 253 1, 7, by decide⟩, ⟨0, at_ 254 255, 0, by decide⟩, stack_met, selector_met, fetch_met _⟩

theorem witness_PopLoadsAtSp :
    (∃ (a : Byte) (s : State) (r : Fin 8), a.toNat = r.val ∧ r ≠ 7 ∧ s.x[7].toNat ≤ 254 ∧ s.pc.toNat + 2 = 255) ∧
    (∃ (a : Byte) (s : State) (r : Fin 8), a.toNat = r.val ∧ r ≠ 7 ∧ s.x[7].toNat ≤ 254 ∧ 255 < s.pc.toNat + 2 ∧
      s.run = .running) ∧
    (∃ (a : Byte) (s : State), a.toNat = 7 ∧ (s.mem.read s.x[7].toNat).toNat ≤ 254 ∧ s.pc.toNat + 2 = 255) ∧
    (∃ (a : Byte) (s : State), a.toNat = 7 ∧ (s.mem.read s.x[7].toNat).toNat ≤ 254 ∧ 255 < s.pc.toNat + 2 ∧
      s.run = .running) ∧
    (∃ (a : Byte) (s : State), a.toNat < 7 ∧ s.x[7].toNat = 255) ∧
    (∃ (a : Byte) (s : State), a.toNat = 7 ∧ (s.mem.read s.x[7].toNat).toNat = 255) ∧
    SelectorMet ∧ FetchMet (opc .pop) :=
  ⟨⟨6, at_ 253 254, 6, by decide⟩, ⟨0, at_ 254 0, 0, by decide⟩,
    ⟨7, (at_ 253 255).memWrite 255 254, by decide⟩, ⟨7, at_ 254 0, by decide⟩,
    ⟨6, at_ 0 255, by decide⟩, ⟨7, (at_ 0 255).memWrite 255 255, by decide⟩, selector_met, fetch_met _⟩

theorem witness_CallStoresReturnAddress :
    (∃ (a : Byte) (s : State) (r : Fin 8), a.toNat = r.val ∧ s.pc.toNat = 253 ∧
      Config.stackLimit.toNat < s.x[7].toNat) ∧
    (∃ (a : Byte) (s : State), a.toNat < 8 ∧ s.pc.toNat = 254) ∧
    (∃ (a : Byte) (s : State), a.toNat < 8 ∧ s.pc.toNat = 253 ∧ s.x[7].toNat ≤ Config.stackLimit.toNat) ∧
    SelectorMet ∧ FetchMet (opc .call) :=
  ⟨⟨7, at_ 253 1, 7, by decide⟩, ⟨0, at_ 254 1, by decide⟩, ⟨7, at_ 253 0, by decide⟩, selector_met, fetch_met _⟩

theorem witness_RetPopsThePc :
    (∃ s : State, s.x[7].toNat = 254) ∧ (∃ s : State, s.x[7].toNat = 255) ∧ FetchMet (opc .ret) :=
  ⟨⟨at_ 0 254, by decide⟩, ⟨at_ 0 255, by decide⟩, fetch_met _⟩

theorem witness_JmpSetsThePc : SelectorMet ∧ FetchMet (opc .jmp) := ⟨selector_met, fetch_met _⟩

theorem witness_JeqJumpsOnEqual :
    (∃ (a : Byte) (s : State) (r : Fin 8), a.toNat = r.val ∧ s.fl.e = true) ∧
    (∃ (a : Byte) (s : State), a.toNat < 8 ∧ s.fl.e = false ∧ s.pc.toNat + 2 = 255) ∧
    (∃ (a : Byte) (s : State), a.toNat < 8 ∧ s.fl.e = false ∧ 255 < s.pc.toNat + 2 ∧ s.run = .running) ∧
    SelectorMet ∧ FetchMet (opc .jeq) :=
  ⟨⟨7, (at_ 254 1).setFl ⟨false, false, true⟩, 7, by decide⟩, ⟨7, at_ 253 1, by decide⟩, ⟨7, at_ 254 1, by decide⟩,
    selector_met, fetch_met _⟩

theorem witness_JneJumpsOnNotEqual :
    (∃ (a : Byte) (s : State) (r : Fin 8), a.toNat = r.val ∧ s.fl.e = false) ∧
    (∃ (a : Byte) (s : State), a.toNat < 8 ∧ s.fl.e = true ∧ s.pc.toNat + 2 = 255) ∧
    (∃ (a : Byte) (s : State), a.toNat < 8 ∧ s.fl.e = true ∧ 255 < s.pc.toNat + 2 ∧ s.run = .running) ∧
    SelectorMet ∧ FetchMet (opc .jne) :=
  ⟨⟨7, at_ 254 1, 7, by decide⟩, ⟨7, (at_ 253 1).setFl ⟨false, false, true⟩, by decide⟩,
    ⟨7, (at_ 254 1).setFl ⟨false, false, true⟩, by decide⟩, selector_met, fetch_met _⟩

theorem witness_UnknownOpcodeIsDiagnosed : AdvanceMet 1 ∧ FetchMet 0xC3 ∧ ∀ m, opc m ≠ 0xC3 :=
  ⟨advance_met 1 (by decide), fetch_met_unknown⟩

theorem witness_DecodeOfEncode :
    (∃ i : Instr, i.wellFormed = true ∧ i = .ldi 255 255) ∧ (∃ i : Instr, i.wellFormed = true ∧ i = .unknown 0xC3) :=
  ⟨⟨_, by decide, rfl⟩, ⟨_, by decide, rfl⟩⟩

theorem witness_EncodeOfDecode :
    (∃ (bs rest : List Byte) (i : Instr), decode bs = .ok (i, rest) ∧ rest = [9]) :=
  ⟨[0x82, 8, 1, 9], [9], .ldi 8 1, rfl, rfl⟩

theorem witness_DecodingMatchesTheWholeByte :
    (∃ (op : Byte) (rest : List Byte) (m : Mnemonic), opc m = op ∧ lengthOf m = rest.length + 1 ∧ m = .ldi) ∧
    (∃ op : Byte, ∀ m, opc m ≠ op) :=
  ⟨⟨0x82, [8, 1], .ldi, by decide⟩, ⟨0xC3, fetch_met_unknown.2⟩⟩

theorem witness_OpcodeDecidesTheLength :
    (∃ (op : Byte) (rest : List Byte), opc .ldi = op ∧ lengthOf .ldi = rest.length + 1) ∧
    (∃ (op : Byte) (rest : List Byte), opc .ldi = op ∧ rest.length + 1 < lengthOf .ldi) ∧
    (∃ op : Byte, ∀ m, opc m ≠ op) :=
  ⟨⟨0x82, [8, 1], by decide⟩, ⟨0x82, [8], by decide⟩, ⟨0xC3, fetch_met_unknown.2⟩⟩

theorem witness_StepRunsTheDecodedInstruction :
    ∃ (s : State) (bs : List Byte) (i : Instr), s.run = .running ∧ s.pc.toNat + bs.length = 256 ∧
      (∀ k, (h : k < bs.length) → s.mem.read (s.pc.toNat + k) = bs[k]) ∧ decode bs = .ok (i, []) :=
  ⟨vec 253 [0x82, 8, 1], [0x82, 8, 1], .ldi 8 1, rfl, by decide, by decide, rfl⟩

theorem witness_OnlyOwnBytesAreFetched :
    (∃ s : State, s.run = .running ∧ opAt s = opc .ldi ∧ s.pc.toNat + lengthOf .ldi - 1 = 255) ∧
    (∃ s : State, s.run = .running ∧ opAt s = opc .ldi ∧ s.pc.toNat + lengthOf .ldi - 1 = 256) ∧
    (∃ s : State, s.run = .running ∧ (∀ m, opc m ≠ opAt s) ∧ s.pc.toNat = 255) :=
  ⟨⟨vec 253 [0x82], by decide⟩, ⟨vec 254 [0x82], by decide⟩,
    ⟨vec 255 [0xC3], rfl, fun m => by cases m <;> decide, rfl⟩⟩

theorem witness_StoppedMachineStaysAsItIs :
    (∃ s : State, s.run ≠ .running ∧ s.run = .halted) ∧ (∃ s : State, s.run ≠ .running ∧ s.run ≠ .halted) :=
  ⟨⟨{ at_ 9 1 with run := .halted }, by decide⟩, ⟨faultedAt (at_ 9 1) .nextFetch 256, by decide⟩⟩

theorem witness_RunningStepIsTotal :
    ∃ s t : State, s.run = .running ∧ step s = .next t ∧ t.out ≠ s.out :=
  ⟨vec 0 [0xC3], { vec 0 [0xC3] with pc := 1, out := [.diag 0xC3] }, rfl, rfl, by decide⟩

/-- A state that meets the invariant with every field in use. -/
def busy : State :=
  { (vec 16 [0x45, 0]).setReg 0 9 with fl := ⟨false, true, false⟩, out := [.print 65025, .diag 0] }

theorem busy_inv : busy.Inv := ⟨by decide, by decide, by decide, by decide⟩

theorem witness_StepKeepsInv : ∃ s t : State, s.Inv ∧ step s = .next t ∧ t.mem.read 0xF3 = 9 :=
  ⟨busy, { busy with mem := [(16, 0x45), (0xF3, 9)], pc := 18, x := busy.x.set 7 0xF3 }, busy_inv, rfl, rfl⟩

theorem witness_ResetMeetsInv : ∃ mem : Memory, mem.wf = true ∧ mem = [(0, 1), (255, 0xFF)] :=
  ⟨_, by decide, rfl⟩

theorem witness_ExactlyOneFlagAfterCmp :
    (∃ s t : State, step s = .next t ∧ s.fl.exactlyOne = true) ∧
    (∃ s t : State, step s = .next t ∧ s.run = .running ∧ opAt s = opc .cmp ∧ s.pc.toNat = 253 ∧
      (s.mem.read (s.pc.toNat + 1)).toNat < 8 ∧ (s.mem.read (s.pc.toNat + 2)).toNat < 8) :=
  ⟨⟨busy, { busy with mem := [(16, 0x45), (0xF3, 9)], pc := 18, x := busy.x.set 7 0xF3 }, rfl, by decide⟩,
    ⟨vec 253 [0xA7, 7, 7], faultedAt { vec 253 [0xA7, 7, 7] with fl := ⟨false, false, true⟩ } .nextFetch 256, rfl,
      by decide⟩⟩

theorem witness_FlagsOnlyByCmpAndConditionalJumps :
    (∃ s t : State, step s = .next t ∧ opAt s ≠ opc .cmp) ∧
    (∃ (i : Instr) (s t : State), exec i s = .next t ∧ ∀ a b, i ≠ .cmp a b) ∧
    (∃ (a b : Byte) (s t : State) (r q : Fin 8), exec (.cmp a b) s = .next t ∧ a.toNat = r.val ∧ b.toNat = q.val) ∧
    (∃ (a b : Byte) (s t : State), exec (.cmp a b) s = .next t ∧ 8 ≤ b.toNat) ∧
    (∃ (i : Instr) (s : State) (f g : Flags) (t : State), f.e = g.e ∧ f ≠ g ∧ exec i { s with fl := f } = .next t ∧
      i = .jeq 0) ∧
    (∃ (i : Instr) (s : State) (f g : Flags) (t : State), (∀ a, i ≠ .jeq a ∧ i ≠ .jne a) ∧ f.e ≠ g.e ∧
      exec i { s with fl := f } = .next t) :=
  ⟨⟨vec 9 [0x01], { vec 9 [0x01] with run := .halted, pc := 10 }, rfl, by decide⟩,
    ⟨.jmp 0, at_ 0 1, at_ 0 1, rfl, nofun⟩,
    ⟨7, 0, at_ 0 1, { at_ 3 1 with fl := ⟨false, true, false⟩ }, 7, 0, rfl, by decide⟩,
    ⟨7, 8, at_ 0 1, faultedAt (at_ 0 1) .regIndex 8, rfl, by decide⟩,
    ⟨.jeq 0, at_ 5 1, ⟨false, false, true⟩, ⟨true, false, true⟩, (at_ 0 1).setFl ⟨false, false, true⟩, rfl, by decide,
      rfl, rfl⟩,
    ⟨.jmp 0, at_ 5 1, ⟨false, false, true⟩, ⟨true, false, false⟩, (at_ 0 1).setFl ⟨false, false, true⟩,
      fun _ => ⟨nofun, nofun⟩, by decide, rfl⟩⟩

theorem witness_RegistersReadAndWritten :
    (∃ (i : Instr) (s t : State) (r : Fin 8), exec i s = .next t ∧ ¬ WritesReg i r ∧ i = .push 0 ∧ r = 0) ∧
    (∃ (i : Instr) (s t : State) (r : Fin 8), exec i s = .next t ∧ ¬ ReadsReg i r ∧ i = .pop 0 ∧ r = 0) :=
  ⟨⟨.push 0, at_ 0 1, { at_ 2 0 with mem := [] }, 0, rfl, by simp [WritesReg], rfl, rfl⟩,
    ⟨.pop 0, at_ 0 1, at_ 2 2, 0, rfl, by simp [ReadsReg], rfl, rfl⟩⟩

theorem not_bad {s : State} (h : s.run = .running) : ¬ s.endedBadly := fun ⟨_, h'⟩ => nomatch h.symm.trans h'

theorem witness_PcAfterEachInstruction :
    (∃ (i : Instr) (s t : State), exec i s = .next t ∧ ¬ t.endedBadly ∧ i = .ldi 7 1 ∧ s.pc.toNat + 3 = 255) ∧
    (∃ (i : Instr) (s t : State), exec i s = .next t ∧ ¬ t.endedBadly ∧ i = .jne 7 ∧ s.pc.toNat = 254) :=
  ⟨⟨.ldi 7 1, at_ 252 9, at_ 255 1, rfl, not_bad rfl, rfl, rfl⟩,
    ⟨.jne 7, at_ 254 9, at_ 9 9, rfl, not_bad rfl, rfl, rfl⟩⟩

theorem witness_RunStateTransitions :
    (∃ s t : State, step s = .next t ∧ s.run = .running ∧ opAt s = opc .hlt ∧ t.endedWell) ∧
    (∃ s t : State, step s = .next t ∧ s.endedBadly) :=
  ⟨⟨vec 255 [0x01], { vec 255 [0x01] with run := .halted }, rfl, rfl, rfl, rfl⟩,
    ⟨faultedAt (at_ 9 1) .nextFetch 256, faultedAt (at_ 9 1) .nextFetch 256, rfl, _, rfl⟩⟩

theorem witness_FaultsArePrecise :
    (∃ (s t : State) (c : Cause), s.run = .running ∧ step s = .next t ∧ t.run = .faulted c ∧
      c = .outOfBounds .returnAddr 256) ∧
    (∃ (s t : State) (c : Cause), s.run = .running ∧ step s = .next t ∧ t.run = .faulted c ∧
      c = .outOfBounds .nextFetch 256) :=
  ⟨⟨vec 254 [0x50, 0], faultedAt (vec 254 [0x50, 0]) .returnAddr 256, _, rfl, rfl, rfl, rfl⟩,
    ⟨vec 253 [0x82, 0, 7], faultedAt ((vec 253 [0x82, 0, 7]).setReg 0 7) .nextFetch 256, _, rfl, rfl, rfl, rfl⟩⟩

/-- A running state whose next step ends with a cause. -/
def StepRaises (kind : OobKind) (v : Int) : Prop :=
  ∃ s t : State, s.run = .running ∧ step s = .next t ∧ t.run = .faulted (.outOfBounds kind v)

theorem witness_FaultCausesAreTheListed :
    StepRaises .operandFetch 257 ∧ StepRaises .regIndex 8 ∧ StepRaises .regIndex 255 ∧ StepRaises .returnAddr 256 ∧
      StepRaises .stackAddr (-1) ∧ StepRaises .stackAddr 256 ∧ StepRaises .nextFetch 256 :=
  ⟨⟨vec 255 [0x82], faultedAt (vec 255 [0x82]) .operandFetch 257, rfl, rfl, rfl⟩,
    ⟨vec 0 [0xA7, 7, 8], faultedAt (vec 0 [0xA7, 7, 8]) .regIndex 8, rfl, rfl, rfl⟩,
    ⟨vec 0 [0x54, 255], faultedAt (vec 0 [0x54, 255]) .regIndex 255, rfl, rfl, rfl⟩,
    ⟨vec 254 [0x50, 0], faultedAt (vec 254 [0x50, 0]) .returnAddr 256, rfl, rfl, rfl⟩,
    ⟨(vec 0 [0x45, 0]).setReg 7 0, faultedAt ((vec 0 [0x45, 0]).setReg 7 0) .stackAddr (-1), rfl, rfl, rfl⟩,
    ⟨(vec 0 [0x11]).setReg 7 255, faultedAt ((vec 0 [0x11]).setReg 7 255) .stackAddr 256, rfl, rfl, rfl⟩,
    ⟨vec 254 [0x55, 0], faultedAt (vec 254 [0x55, 0]) .nextFetch 256, rfl, rfl, rfl⟩⟩

theorem witness_UnsupportedOperationIsNeverRaised :
    (∃ a b : Byte, a.toNat < 8 ∧ b.toNat < 8) ∧ (∃ s t : State, s.run = .running ∧ step s = .next t) :=
  ⟨⟨7, 0, by decide⟩, ⟨vec 9 [0x01], { vec 9 [0x01] with run := .halted, pc := 10 }, rfl, rfl⟩⟩

theorem witness_OnlyPushAndCallStore :
    ∃ (i : Instr) (s t : State) (b : Nat), exec i s = .next t ∧ t.mem.read b ≠ s.mem.read b ∧ b = 0 :=
  ⟨.call 0, at_ 253 1, { at_ 0 0 with mem := [(0, 255)] }, 0, rfl, by decide, rfl⟩

theorem witness_OnlyFetchPopAndRetRead :
    (∃ (s t : State) (b : Nat), step s = .next t ∧ b < s.pc.toNat ∧
      (b = s.x[7].toNat → opAt s ≠ opc .pop ∧ opAt s ≠ opc .ret)) ∧
    (∃ (s t : State) (b : Nat), step s = .next t ∧ s.pc.toNat + opLength (opAt s) = b ∧
      (b = s.x[7].toNat → opAt s ≠ opc .pop ∧ opAt s ≠ opc .ret)) :=
  ⟨⟨vec 9 [0x01], { vec 9 [0x01] with run := .halted, pc := 10 }, 8, rfl, by decide, by decide⟩,
    ⟨vec 9 [0x01], { vec 9 [0x01] with run := .halted, pc := 10 }, 10, rfl, by decide, by decide⟩⟩

theorem witness_SinkEventsByInstruction :
    (∃ s t : State, exec (.prn 7) s = .next t ∧ t.out ≠ s.out) ∧
    (∃ s t : State, exec (.mul 7 7) s = .next t ∧ t.out ≠ s.out) ∧
    (∃ s t : State, exec (.unknown 0xC3) s = .next t ∧ t.out ≠ s.out) :=
  ⟨⟨at_ 0 255, { at_ 2 255 with out := [.print 255] }, rfl, by decide⟩,
    ⟨at_ 0 255, { at_ 3 255 with out := [.print 65025] }, rfl, by decide⟩,
    ⟨at_ 0 255, { at_ 1 255 with out := [.diag 0xC3] }, rfl, by decide⟩⟩

theorem witness_SinkStreamIsNeverRead : ∃ s t : State, step s = .next t ∧ t.out ≠ s.out :=
  ⟨vec 0 [0xC3], { vec 0 [0xC3] with pc := 1, out := [.diag 0xC3] }, rfl, by decide⟩

/-- A running state with the opcode of an instruction that is neither HLT nor RET at PC, and its next state. -/
def Runs (s : State) (m : Mnemonic) : Prop :=
  s.run = .running ∧ (∃ t, step s = .next t) ∧ opAt s = opc m ∧ m ≠ .hlt ∧ m ≠ .ret

theorem witness_FaultPriority :
    Runs (vec 255 [0x47]) .prn ∧ Runs (vec 254 [0x47, 8]) .prn ∧ Runs (vec 253 [0xA2, 7, 8]) .mul ∧
      Runs (vec 254 [0x50, 7]) .call ∧ Runs ((vec 253 [0x50, 7]).setReg 7 0) .call ∧
      (Runs ((vec 254 [0x46, 0]).setReg 7 255) .pop ∧ PopPassesTop 0 ((vec 254 [0x46, 0]).setReg 7 255)) ∧
      (Runs ((vec 254 [0x46, 7]).memWrite 0xF4 255) .pop ∧ PopPassesTop 7 ((vec 254 [0x46, 7]).memWrite 0xF4 255)) ∧
      Runs (vec 254 [0x46, 0]) .pop ∧ Runs (vec 253 [0x46, 0]) .pop :=
  ⟨⟨rfl, ⟨_, rfl⟩, by decide⟩, ⟨rfl, ⟨_, rfl⟩, by decide⟩, ⟨rfl, ⟨_, rfl⟩, by decide⟩, ⟨rfl, ⟨_, rfl⟩, by decide⟩,
    ⟨rfl, ⟨_, rfl⟩, by decide⟩, ⟨⟨rfl, ⟨_, rfl⟩, by decide⟩, by decide⟩, ⟨⟨rfl, ⟨_, rfl⟩, by decide⟩, by decide⟩,
    ⟨rfl, ⟨_, rfl⟩, by decide⟩, ⟨rfl, ⟨_, rfl⟩, by decide⟩⟩

theorem witness_ResetState : ∃ (gpr : Vector Byte 7) (mem : Memory), gpr[6] = 9 ∧ mem = [(255, 1)] :=
  ⟨Vector.replicate 7 9, _, by decide, rfl⟩

theorem witness_LoadPlacesTheImage :
    (∃ img : List Byte, img.length = 256) ∧ (∃ img : List Byte, 256 < img.length) ∧
    (∃ s : State, s.mem.wf = true ∧ s.mem ≠ []) :=
  ⟨⟨List.replicate 256 1, List.length_replicate⟩, ⟨List.replicate 257 1, by rw [List.length_replicate]; decide⟩,
    ⟨vec 255 [1], by decide⟩⟩

theorem witness_LaunchRunsTheFirstImageByte :
    (∃ img : List Byte, img.length = 256) ∧ (∃ img : List Byte, img.length = 0) :=
  ⟨⟨List.replicate 256 1, List.length_replicate⟩, ⟨[], rfl⟩⟩

theorem witness_PlacedWordIsExecuted :
    ∃ (s : State) (nbits w : Nat) (i : Instr), s.pc.toNat = 253 ∧ decodeTableWord nbits w = some i ∧ i = .ldi 3 0x12 :=
  ⟨at_ 253 1, 24, 0x120382, .ldi 3 0x12, by decide, by decide, rfl⟩

theorem witness_PushThenPop :
    ∃ (a b : Byte) (r q : Fin 8) (s : State), a.toNat = r.val ∧ b.toNat = q.val ∧ q ≠ 7 ∧
      Config.stackLimit.toNat < s.x[7].toNat ∧ s.pc.toNat + 4 = 255 ∧ r = 7 :=
  ⟨7, 6, 7, 6, at_ 251 1, by decide⟩

theorem witness_CallThenRet :
    ∃ (a : Byte) (s t u : State), a.toNat < 8 ∧ Config.stackLimit.toNat < s.x[7].toNat ∧ s.pc.toNat = 253 ∧
      exec (.call a) s = .next t ∧ u.x[7] = t.x[7] ∧ u.mem.read u.x[7].toNat = t.mem.read t.x[7].toNat ∧ u ≠ t :=
  ⟨0, at_ 253 1, { at_ 0 0 with mem := [(0, 255)] }, { at_ 20 0 with mem := [(0, 255)] }, by decide, by decide,
    by decide, rfl, rfl, rfl, by decide⟩

theorem witness_StoreIsSeenByTheNextFetch :
    (∃ (s : State) (r : Fin 8), s.run = .running ∧ opAt s = opc .push ∧
      (s.mem.read (s.pc.toNat + 1)).toNat = r.val ∧ r ≠ 7 ∧ Config.stackLimit.toNat < s.x[7].toNat ∧
      s.pc.toNat + 2 = 255 ∧ s.x[7].toNat - 1 = s.pc.toNat ∧ s.x[r] = opc .hlt) ∧
    (∃ (s : State) (r : Fin 8), s.run = .running ∧ opAt s = opc .push ∧
      (s.mem.read (s.pc.toNat + 1)).toNat = r.val ∧ r ≠ 7 ∧ Config.stackLimit.toNat < s.x[7].toNat ∧
      s.pc.toNat + 2 ≤ 255 ∧ s.x[7].toNat - 1 = s.pc.toNat + 2 ∧ s.x[r] = opc .hlt) :=
  ⟨⟨((vec 253 [0x45, 0]).setReg 0 1).setReg 7 254, 0, by decide⟩,
    ⟨((vec 252 [0x45, 0]).setReg 0 1).setReg 7 255, 0, by decide⟩⟩

theorem witness_StackLimitBoundsTheStores :
    (∃ (limit a : Byte) (s : State), a.toNat < 8 ∧ s.x[7].toNat = limit.toNat ∧ s.pc.toNat = 253 ∧ limit = 0x20) ∧
    (∃ (limit a : Byte) (s : State) (b : Nat), a.toNat < 8 ∧ s.x[7].toNat = limit.toNat + 1 ∧ s.pc.toNat = 253 ∧
      b < limit.toNat ∧ limit = 0x20) ∧
    (∃ (limit a : Byte) (s : State) (r : Fin 8), a.toNat = r.val ∧ limit.toNat < s.x[7].toNat ∧ s.pc.toNat = 253 ∧
      limit = 0xFE ∧ r = 7) :=
  ⟨⟨0x20, 7, at_ 253 0x20, by decide⟩, ⟨0x20, 7, at_ 253 0x21, 0x1F, by decide⟩,
    ⟨0xFE, 7, at_ 253 0xFF, 7, by decide⟩⟩

end Sys2Proof.Tests
end

section
/-! The decoder, case by case, and the two statements about the opcode byte (30_encoding.md R50, R53). -/

namespace Sys2Proof.Encoding

open Sys2Proof.Claims

/-! ### What the opcode byte alone decides -/

/-- A byte outside the table OPC is an unknown opcode (30_encoding.md R57). -/
theorem decodeOp_eq_none {op : Byte} (h : ∀ m, opc m ≠ op) : decodeOp op = none := by
  cases hop : decodeOp op with
  | none => rfl
  | some m => exact absurd (opc_of_decodeOp op m hop) (h m)

/-- The length in the claims is the one the format gives (30_encoding.md R51). -/
theorem lengthOf_eq_operands (m : Mnemonic) : lengthOf m = 1 + m.format.operands := by
  cases m <;> rfl

theorem opLength_opc_eq_lengthOf (m : Mnemonic) : opLength (opc m) = lengthOf m := by
  rw [opLength_opc, lengthOf_eq_operands]

/-! ### The instruction assembled from an opcode byte and two operand bytes -/

theorem assemble_of_unknown {op : Byte} (h : decodeOp op = none) (a b : Byte) :
    assemble op a b = .unknown op := by
  simp [assemble, h]

theorem mnemonicOf_assemble (op a b : Byte) : mnemonicOf (assemble op a b) = decodeOp op := by
  cases hop : decodeOp op with
  | none => rw [assemble_of_unknown hop]; rfl
  | some m =>
    obtain rfl := opc_of_decodeOp op m hop
    cases m <;> rfl

theorem encode_assemble_opc (m : Mnemonic) (a b : Byte) :
    encode (assemble (opc m) a b) = opc m :: [a, b].take m.format.operands := by
  cases m <;> rfl

/-- The encoding is the opcode and as many of the operand bytes, in order, as the length leaves room for. -/
theorem encode_assemble (op a b : Byte) :
    encode (assemble op a b) = op :: [a, b].take (opLength op - 1) := by
  cases hop : decodeOp op with
  | none => rw [assemble_of_unknown hop, opLength_unknown op hop]; rfl
  | some m =>
    obtain rfl := opc_of_decodeOp op m hop
    rw [encode_assemble_opc, opLength_opc, Nat.add_sub_cancel_left]

/-! ### The two answers of the decoder -/

theorem decode_of_enough {op : Byte} {rest : List Byte} (h : opLength op ≤ rest.length + 1) :
    decode (op :: rest) =
      .ok (assemble op (rest.getD 0 0) (rest.getD 1 0), rest.drop (opLength op - 1)) :=
  if_neg (Nat.not_lt.mpr h)

theorem decode_of_short {op : Byte} {rest : List Byte} (h : rest.length + 1 < opLength op) :
    decode (op :: rest) = .error (.truncated (opLength op) (rest.length + 1)) :=
  if_pos h

theorem decode_of_unknown {op : Byte} (h : decodeOp op = none) (rest : List Byte) :
    decode (op :: rest) = .ok (.unknown op, rest) := by
  have hlen : opLength op = 1 := opLength_unknown op h
  rw [decode_of_enough (by omega), assemble_of_unknown h, hlen, Nat.sub_self, List.drop_zero]

/-- The decoder's two operand reads are the first bytes of the list, as far as they are there. -/
theorem take_getD_pair {n : Nat} {rest : List Byte} (hle : n ≤ 2) (hlen : n ≤ rest.length) :
    [rest.getD 0 0, rest.getD 1 0].take n = rest.take n := by
  match rest with
  | [] => obtain rfl := Nat.le_zero.mp hlen; rfl
  | [x] => obtain rfl | rfl := Nat.le_one_iff_eq_zero_or_eq_one.mp hlen <;> rfl
  | x :: y :: zs => exact (List.take_append_of_le_length (l₁ := [x, y]) hle).symm

/-- What is decoded encodes to the bytes it was read from (30_encoding.md R50). -/
theorem encode_assemble_getD {op : Byte} {rest : List Byte} (h : opLength op ≤ rest.length + 1) :
    encode (assemble op (rest.getD 0 0) (rest.getD 1 0)) = (op :: rest).take (opLength op) := by
  have hpos := opLength_pos op
  have hle := opLength_le op
  rw [encode_assemble, take_getD_pair (by omega) (by omega), List.take_cons hpos]

/-! ### The obligations -/

/-- Settles O17: a byte of the table selects its mnemonic, every other byte the unknown opcode. -/
theorem decodingMatchesTheWholeByte : Obligations.DecodingMatchesTheWholeByte := by
  intro op rest
  constructor
  · rintro m rfl hlen
    rw [← opLength_opc_eq_lengthOf] at hlen ⊢
    exact ⟨_, decode_of_enough hlen, by rw [mnemonicOf_assemble, decodeOp_opc]⟩
  · intro hne
    exact decode_of_unknown (decodeOp_eq_none hne) rest

/-- Settles O18: the length is `opLength` of the opcode byte, and the decoder asks for exactly that many bytes. -/
theorem opcodeDecidesTheLength : Obligations.OpcodeDecidesTheLength := by
  intro op rest
  refine ⟨opLength op, opLength_pos op, opLength_le op, ?mnemonic, ?unknown, ?enough, decode_of_short⟩
  case mnemonic => rintro m rfl; exact opLength_opc_eq_lengthOf m
  case unknown => exact fun hne => opLength_unknown op (decodeOp_eq_none hne)
  case enough => exact fun hlen => ⟨_, decode_of_enough hlen, encode_assemble_getD hlen⟩

end Sys2Proof.Encoding
end

section
/-! The step of a running machine: the sequential advance, the events of an instruction, and the two statements about
the unknown opcode and the totality of the step (40_dispatcher_hlt_unknown.md R75, R77, R78). -/

namespace Sys2Proof.Dispatcher

open Sys2Proof.Machine Sys2Proof.Claims Sys2Proof.Encoding

/-! ### The sequential advance -/

theorem trunc8_toNat_add (b : Byte) (n : Nat) : trunc8 (b.toNat + n) = b + trunc8 n := by
  simp [trunc8, BitVec.ofNat_add]

theorem advance_of_fits {len : Nat} {s : State} (h : s.pc.toNat + len ≤ 255) :
    advance len s = { s with pc := s.pc + trunc8 len } := by
  rw [← trunc8_toNat_add]
  exact if_pos h

/-- Past address 255 a running machine takes NextFetch, on the state the instruction's effects have left. -/
theorem advance_of_overruns {len : Nat} {s : State} (h : 255 < s.pc.toNat + len) (hr : s.run = .running) :
    advance len s = oob s .nextFetch ((s.pc.toNat + len : Nat) : Int) :=
  (if_neg (Nat.not_le.mpr h)).trans (if_pos hr)

/-! ### The step of a running machine -/

theorem step_of_fetch_ok {s : State} {i : Instr} (hr : s.run = .running) (hf : fetch s = .ok i) :
    step s = exec i s := by
  simp [step, hr, hf]

/-- An unknown opcode has no operand bytes, so its fetch succeeds at every address (R73, R77). -/
theorem fetch_of_unknown {s : State} (h : decodeOp (s.memRead s.pc) = none) :
    fetch s = .ok (.unknown (s.memRead s.pc)) := by
  have hlen : opLength (s.memRead s.pc) = 1 := opLength_unknown _ h
  have hpc : s.pc.toNat < 256 := s.pc.isLt
  obtain ⟨_, hf⟩ | ⟨hover, _⟩ := fetch_cases s
  · rw [hf, assemble_of_unknown h]
  · omega

/-- Every state has a next state: the machine's own faults are run states (60_exceptions.md R146). -/
theorem step_next (s : State) : ∃ t, step s = .next t := by
  obtain ⟨_, i, _, h⟩ | ⟨_, c, _, h⟩ | ⟨_, h⟩ := step_cases s <;> rw [h]
  · exact exec_next i s
  · exact ⟨_, rfl⟩
  · exact ⟨_, rfl⟩

/-! ### The Sink: at most one event -/

@[simp] theorem afterPreDecrement_out (s : State) : (afterPreDecrement s).out = s.out := rfl

/-- PRN, MUL and the unknown opcode emit one event, whether or not the advance after it faults; every other outcome
leaves the stream as it was. -/
theorem executes_out {i : Instr} {s t : State} (h : Executes s i t) :
    t.out = s.out ∨ ∃ e, t.out = s.out ++ [e] := by
  cases h
  case prn | mul | unknown => exact .inr ⟨_, by rw [advance_out, State.emit_out]⟩
  all_goals exact .inl (by simp)

theorem step_out {s t : State} (h : step s = .next t) : t.out = s.out ∨ ∃ e, t.out = s.out ++ [e] := by
  obtain ⟨_, i, _, hs⟩ | ⟨_, c, _, hs⟩ | ⟨_, hs⟩ := step_cases s <;> rw [hs] at h
  · exact executes_out (exec_executes i s t h)
  · cases h; exact .inl (raise_out s c)
  · cases h; exact .inl rfl

/-! ### The obligations -/

/-- Settles O14: the diagnostic is emitted first and kept by both ends of the advance by 1; a byte outside the table
is fetched as UNKNOWN at every address. -/
theorem unknownOpcodeIsDiagnosed : Obligations.UnknownOpcodeIsDiagnosed := by
  refine ⟨fun op s => ⟨fun hpc => ?fits, fun hpc hr => ?overruns⟩, fun op hne s hr hop => ?fetched⟩
  case fits => exact congrArg Host.Outcome.next (advance_of_fits (s := s.emit (.diag op)) hpc)
  case overruns => exact congrArg Host.Outcome.next (advance_of_overruns (s := s.emit (.diag op)) hpc hr)
  case fetched =>
    obtain rfl : s.memRead s.pc = op := hop
    exact step_of_fetch_ok hr (fetch_of_unknown (decodeOp_eq_none hne))

/-- Settles O23: every step answers a next state, and no outcome of an instruction holds more than one new event. -/
theorem runningStepIsTotal : Obligations.RunningStepIsTotal := by
  intro s _
  obtain ⟨t, ht⟩ := step_next s
  refine ⟨t, ht, fun u hu => ?unique, step_out ht⟩
  case unique => exact Host.Outcome.next.inj (hu.symm.trans ht)

end Sys2Proof.Dispatcher
end

section
/-! LDI with its faults: how a register operand ends, what a three-byte fetch answers, and the statement assembled from
the two (10_state.md R13, 40_dispatcher_hlt_unknown.md R73, 41_load_output.md R90). -/

namespace Sys2Proof.LoadOutput

open Sys2Proof.Machine Sys2Proof.Claims Sys2Proof.Encoding Sys2Proof.Dispatcher

/-! ### The fetch of an instruction with two operand bytes -/

/-- The last byte is within memory exactly up to PC = 253. -/
theorem fetch_of_length_three {s : State} (hlen : opLength (s.memRead s.pc) = 3) (hpc : s.pc.toNat ≤ 253) :
    fetch s = .ok (assemble (s.memRead s.pc) (s.mem.read (s.pc.toNat + 1)) (s.mem.read (s.pc.toNat + 2))) := by
  obtain ⟨_, hf⟩ | ⟨hover, _⟩ := fetch_cases s
  · rw [hf, hlen]; rfl
  · omega

theorem fetch_of_length_three_overruns {s : State} (hlen : opLength (s.memRead s.pc) = 3)
    (hpc : 254 ≤ s.pc.toNat) :
    fetch s = .error (.outOfBounds .operandFetch ((s.pc.toNat + 2 : Nat) : Int)) := by
  obtain ⟨hfits, _⟩ | ⟨_, hf⟩ := fetch_cases s
  · omega
  · rw [hf, hlen]; rfl

theorem step_of_fetch_error {s : State} {c : Cause} (hr : s.run = .running) (hf : fetch s = .error c) :
    step s = .next (raise c s) := by
  simp [step, hr, hf]

/-- Any opcode of length 3 is fetched as the instruction its bytes assemble to, or faults from PC = 254 on. -/
theorem fetchedAs3_of_lengthOf {m : Mnemonic} (hlen : lengthOf m = 3) :
    FetchedAs3 (opc m) (assemble (opc m)) := by
  intro s hr hop
  have hop : s.memRead s.pc = opc m := hop
  have hlen : opLength (s.memRead s.pc) = 3 := by rw [hop, opLength_opc_eq_lengthOf, hlen]
  refine ⟨fun hpc => ?fits, fun hpc => ?overruns⟩
  case fits => exact hop ▸ step_of_fetch_ok hr (fetch_of_length_three hlen hpc)
  case overruns => exact step_of_fetch_error hr (fetch_of_length_three_overruns hlen hpc)

/-! ### The meaning of LDI -/

theorem exec_ldi (a imm : Byte) (s : State) :
    exec (.ldi a imm) s = .next (withReg a s fun r => advance 3 (s.setReg r imm)) := rfl

theorem exec_ldi_of_selector {a : Byte} {r : Fin 8} (ha : a.toNat = r.val) (imm : Byte) (s : State) :
    exec (.ldi a imm) s = .next (advance 3 (s.setReg r imm)) := by
  rw [exec_ldi, withReg_valid a s _ r ha]

/-! ### The obligation -/

/-- Settles O2: the load is made before the advance by 3, so both ends of the advance keep it; a selector above 7 faults
before the load. -/
theorem ldiLoadsItsImmediate : Obligations.LdiLoadsItsImmediate := by
  refine ⟨fun a imm s r ha => ⟨fun hpc => ?fits, fun hpc hr => ?overruns⟩, fun a imm s ha => ?selector, ?fetched⟩
  case fits =>
    rw [exec_ldi_of_selector ha]
    exact congrArg Host.Outcome.next (advance_of_fits (s := s.setReg r imm) hpc)
  case overruns =>
    rw [exec_ldi_of_selector ha]
    exact congrArg Host.Outcome.next (advance_of_overruns (s := s.setReg r imm) hpc hr)
  case selector => exact congrArg Host.Outcome.next (withReg_invalid a s _ ha)
  case fetched => exact fetchedAs3_of_lengthOf (m := .ldi) rfl

end Sys2Proof.LoadOutput
end

section
/-! RET with its fault: what the tested increment of SP answers, what a one-byte fetch answers, and the statement
assembled from the two (20_memory.md R33, 40_dispatcher_hlt_unknown.md R72, 43_stack_call.md R114, R115). -/

namespace Sys2Proof.StackCall

open Sys2Proof.Machine Sys2Proof.Claims Sys2Proof.Encoding Sys2Proof.Dispatcher

/-! ### The fetch of an instruction without operand bytes -/

/-- The opcode byte is the whole instruction, so the fetch succeeds at every PC and reads no operand byte. -/
theorem fetch_of_length_one {s : State} (hlen : opLength (s.memRead s.pc) = 1) :
    fetch s = .ok (assemble (s.memRead s.pc) 0 0) := by
  have hpc : s.pc.toNat < 256 := s.pc.isLt
  obtain ⟨_, hf⟩ | ⟨hover, _⟩ := fetch_cases s
  · rw [hf, hlen]; rfl
  · omega

/-- Any opcode of length 1 is fetched as the instruction it names, at every PC. -/
theorem fetchedAs1_of_lengthOf {m : Mnemonic} (hlen : lengthOf m = 1) :
    FetchedAs1 (opc m) (assemble (opc m) 0 0) := by
  intro s hr hop
  have hop : s.memRead s.pc = opc m := hop
  have hlen : opLength (s.memRead s.pc) = 1 := by rw [hop, opLength_opc_eq_lengthOf, hlen]
  exact hop ▸ step_of_fetch_ok hr (fetch_of_length_one hlen)

/-! ### The meaning of RET -/

theorem exec_ret (s : State) :
    exec .ret s = .next (bounded .stackAddr (s.sp.toNat + 1) s fun newSp =>
      (s.setPc (s.memRead s.sp)).setSp newSp) := rfl

theorem exec_ret_of_sp_le {s : State} (h : s.sp.toNat ≤ 254) :
    exec .ret s = .next ((s.setPc (s.memRead s.sp)).setSp (s.sp + 1)) := by
  obtain ⟨_, hb⟩ | ⟨hover, _⟩ := bounded_cases .stackAddr (s.sp.toNat + 1) s fun newSp =>
    (s.setPc (s.memRead s.sp)).setSp newSp
  · rw [exec_ret, hb, trunc8_toNat_add]; rfl
  · omega

/-- At the top of memory the new SP would be 256; the test comes before PC and SP are written. -/
theorem exec_ret_of_sp_eq_top {s : State} (h : s.sp.toNat = 255) :
    exec .ret s = .next (raise (.outOfBounds .stackAddr 256) s) := by
  obtain ⟨hfits, _⟩ | ⟨_, hb⟩ := bounded_cases .stackAddr (s.sp.toNat + 1) s fun newSp =>
    (s.setPc (s.memRead s.sp)).setSp newSp
  · omega
  · rw [exec_ret, hb, h]; rfl

/-! ### The obligation -/

/-- Settles O10: the increment of SP stays in range exactly up to SP = 254, and the one opcode byte is fetched at every
PC. -/
theorem retPopsThePc : Obligations.RetPopsThePc :=
  ⟨fun _ => exec_ret_of_sp_le, fun _ => exec_ret_of_sp_eq_top, fetchedAs1_of_lengthOf (m := .ret) rfl⟩

end Sys2Proof.StackCall
end

section
/-! JMP and JNE with their faults: what a two-byte fetch answers, how one register operand faults, and the statements
assembled from these (10_state.md R13, 40_dispatcher_hlt_unknown.md R73, R75, 44_jump.md R125, R127). -/

namespace Sys2Proof.Jump

open Sys2Proof.Machine Sys2Proof.Claims Sys2Proof.Encoding Sys2Proof.Dispatcher Sys2Proof.LoadOutput

/-! ### The fetch of an instruction with one operand byte -/

/-- The operand byte is within memory exactly up to PC = 254; a second one is not read. -/
theorem fetch_of_length_two {s : State} (hlen : opLength (s.memRead s.pc) = 2) (hpc : s.pc.toNat ≤ 254) :
    fetch s = .ok (assemble (s.memRead s.pc) (s.mem.read (s.pc.toNat + 1)) 0) := by
  obtain ⟨_, hf⟩ | ⟨hover, _⟩ := fetch_cases s
  · rw [hf, hlen]; rfl
  · omega

theorem fetch_of_length_two_overruns {s : State} (hlen : opLength (s.memRead s.pc) = 2) (hpc : s.pc.toNat = 255) :
    fetch s = .error (.outOfBounds .operandFetch 256) := by
  obtain ⟨hfits, _⟩ | ⟨_, hf⟩ := fetch_cases s
  · omega
  · rw [hf, hlen, hpc]; rfl

/-- Any opcode of length 2 is fetched as the instruction its bytes assemble to, or faults at PC = 255. -/
theorem fetchedAs2_of_lengthOf {m : Mnemonic} (hlen : lengthOf m = 2) :
    FetchedAs2 (opc m) (fun a => assemble (opc m) a 0) := by
  intro s hr hop
  have hop : s.memRead s.pc = opc m := hop
  have hlen : opLength (s.memRead s.pc) = 2 := by rw [hop, opLength_opc_eq_lengthOf, hlen]
  refine ⟨fun hpc => ?fits, fun hpc => ?overruns⟩
  case fits => exact hop ▸ step_of_fetch_ok hr (fetch_of_length_two hlen hpc)
  case overruns => exact step_of_fetch_error hr (fetch_of_length_two_overruns hlen hpc)

/-! ### The meaning of a register operand and of JNE -/

/-- An instruction with one register operand checks it before anything else. -/
theorem faultsOnSelector_of_selectors {i : Instr} {a : Byte} (hi : selectors i = [a]) (s : State) :
    FaultsOnSelector i a s := by
  intro ha
  have hfind : (selectors i).find? (fun b => decide (8 ≤ b.toNat)) = some a := by simp [hi, ha]
  exact executes_exec i s _ (.regIndex i a hfind)

theorem exec_jne_of_equal {a : Byte} {s : State} (ha : a.toNat < 8) (he : s.fl.e = true) :
    exec (.jne a) s = .next (advance 2 s) :=
  executes_exec _ s _ (.jneNotTaken a ha he)

/-! ### The obligations -/

/-- Settles O11: with a register operand JMP has the one outcome `Executes.jmp`, which asks nothing of PC; only the
selector and the fetch can fault. -/
theorem jmpSetsThePc : Obligations.JmpSetsThePc := by
  refine ⟨fun a s r ha => ?jumps, fun a s => ?selector, ?fetched⟩
  case jumps => exact executes_exec _ s _ (.jmp a r ha)
  case selector => exact faultsOnSelector_of_selectors rfl s
  case fetched => exact fetchedAs2_of_lengthOf (m := .jmp) rfl

/-- Settles O13: FL.E alone decides between the jump and the advance by 2, and only the advance can pass address 255; the
selector is checked before FL.E is looked at. -/
theorem jneJumpsOnNotEqual : Obligations.JneJumpsOnNotEqual := by
  refine ⟨fun a s r ha he => ?jumps, fun a s ha he => ⟨fun hpc => ?fits, fun hpc hr => ?overruns⟩, fun a s => ?selector,
    ?fetched⟩
  case jumps => exact executes_exec _ s _ (.jneTaken a r ha he)
  case fits =>
    rw [exec_jne_of_equal ha he, advance_of_fits hpc]
    rfl
  case overruns => rw [exec_jne_of_equal ha he, advance_of_overruns hpc hr]
  case selector => exact faultsOnSelector_of_selectors rfl s
  case fetched => exact fetchedAs2_of_lengthOf (m := .jne) rfl

end Sys2Proof.Jump
end

section
/-! Decoding and encoding are inverse to each other, and the fetch that follows from it: the instruction fetched is the
one whose encoding stands at PC (30_encoding.md R50, 40_dispatcher_hlt_unknown.md R72, R73). -/

namespace Sys2Proof.Fetching

open Sys2Proof.Machine Sys2Proof.Claims Sys2Proof.Encoding Sys2Proof.Dispatcher Sys2Proof.LoadOutput

/-! ### Decode after encode -/

/-- The length law of each instruction, for all of them. -/
theorem encodeLength : (i : Instr) → Laws.EncodeLength.Statement i
  | .hlt => Laws.EncodeLength.hlt
  | .ldi a imm => Laws.EncodeLength.ldi a imm
  | .prn a => Laws.EncodeLength.prn a
  | .mul a b => Laws.EncodeLength.mul a b
  | .add a b => Laws.EncodeLength.add a b
  | .push a => Laws.EncodeLength.push a
  | .pop a => Laws.EncodeLength.pop a
  | .call a => Laws.EncodeLength.call a
  | .ret => Laws.EncodeLength.ret
  | .cmp a b => Laws.EncodeLength.cmp a b
  | .jmp a => Laws.EncodeLength.jmp a
  | .jeq a => Laws.EncodeLength.jeq a
  | .jne a => Laws.EncodeLength.jne a
  | .unknown op => Laws.EncodeLength.unknown op

/-- The opcode byte and the operand bytes of an encoding assemble to the instruction, whatever bytes follow. -/
theorem assemble_of_encode {i : Instr} {op : Byte} {bs : List Byte} (hi : i.wellFormed = true)
    (h : encode i = op :: bs) (rest : List Byte) :
    assemble op ((bs ++ rest).getD 0 0) ((bs ++ rest).getD 1 0) = i := by
  cases i <;> cases h
  case unknown => exact assemble_of_unknown (by simpa [Instr.wellFormed] using hi) _ _
  all_goals rfl

/-- Settles O15: the encoding has the length its first byte decides, so the decoder cuts it off exactly, and its bytes
assemble to the instruction. -/
theorem decodeOfEncode : Obligations.DecodeOfEncode := by
  intro i rest hi
  obtain ⟨op, bs, henc, hlen, _⟩ := encodeLength i hi
  have hlen : opLength op = bs.length + 1 := by rw [← hlen, henc, List.length_cons]
  have henough : opLength op ≤ (bs ++ rest).length + 1 := by rw [hlen, List.length_append]; omega
  rw [henc, List.cons_append, decode_of_enough henough, assemble_of_encode hi henc, hlen, Nat.add_sub_cancel,
    List.drop_left]

/-- No two instructions have the same bytes. -/
theorem encode_injective {i j : Instr} (hi : i.wellFormed = true) (hj : j.wellFormed = true)
    (h : encode i = encode j) : i = j := by
  have hij := (decodeOfEncode i [] hi).symm.trans (h ▸ decodeOfEncode j [] hj)
  simpa using hij

/-! ### Encode after decode -/

theorem assemble_wellFormed (op a b : Byte) : (assemble op a b).wellFormed = true := by
  cases hop : decodeOp op with
  | none => simp [assemble_of_unknown hop, Instr.wellFormed, hop]
  | some m =>
    obtain rfl := opc_of_decodeOp op m hop
    cases m <;> rfl

theorem decode_eq_ok {op : Byte} {tl rest : List Byte} {i : Instr} (h : decode (op :: tl) = .ok (i, rest)) :
    opLength op ≤ tl.length + 1 ∧ i = assemble op (tl.getD 0 0) (tl.getD 1 0) ∧
      rest = tl.drop (opLength op - 1) := by
  by_cases hlen : opLength op ≤ tl.length + 1
  · rw [decode_of_enough hlen] at h
    cases h
    exact ⟨hlen, rfl, rfl⟩
  · rw [decode_of_short (Nat.not_le.mp hlen)] at h
    cases h

/-- Settles O16: the decoder answers the assembled instruction, whose encoding is the bytes that are cut off. -/
theorem encodeOfDecode : Obligations.EncodeOfDecode := by
  intro bs rest i h
  cases bs with
  | nil => cases h
  | cons op tl =>
    obtain ⟨hlen, rfl, rfl⟩ := decode_eq_ok h
    have hcut : tl.drop (opLength op - 1) = (op :: tl).drop (opLength op) := by
      rw [List.drop_cons (opLength_pos op)]
    refine ⟨assemble_wellFormed op _ _, ?_⟩
    rw [encode_assemble_getD hlen, hcut, List.take_append_drop]

/-- Settles O19, by evaluating the decoder on each word. -/
theorem writtenOutWordsDecode : Obligations.WrittenOutWordsDecode :=
  ⟨rfl, rfl, rfl, rfl, rfl, rfl, rfl, rfl, rfl, rfl, rfl, rfl, rfl, rfl⟩

/-! ### The fetch reads the encoding at PC -/

/-- The bytes of the instruction stand at PC, all of them within memory. -/
structure EncodedAt (s : State) (i : Instr) : Prop where
  wellFormed : i.wellFormed = true
  fits : s.pc.toNat + (encode i).length ≤ 256
  bytes : ∀ k, (h : k < (encode i).length) → s.mem.read (s.pc.toNat + k) = (encode i)[k]

/-- What the fetch assembles encodes to the bytes of memory from PC up. -/
theorem encode_fetched (s : State) :
    encode (assemble (opAt s) (operandByte s (opLength (opAt s)) 1) (operandByte s (opLength (opAt s)) 2)) =
      (List.range (opLength (opAt s))).map fun k => s.mem.read (s.pc.toNat + k) := by
  have hpos := opLength_pos (opAt s)
  have hle := opLength_le (opAt s)
  rw [encode_assemble]
  obtain hlen | hlen | hlen : opLength (opAt s) = 1 ∨ opLength (opAt s) = 2 ∨ opLength (opAt s) = 3 := by omega
  all_goals rw [hlen]; rfl

theorem opLength_opAt_of_encodedAt {s : State} {i : Instr} (h : EncodedAt s i) :
    opLength (opAt s) = (encode i).length := by
  obtain ⟨op, bs, henc, hlen, _⟩ := encodeLength i h.wellFormed
  have hop : opAt s = op := by
    have := h.bytes 0 (by simp [henc])
    simpa [henc, opAt] using this
  rw [hop, hlen]

/-- A fetch that answers an instruction has found its encoding at PC. -/
theorem encodedAt_of_fetch {s : State} {i : Instr} (h : fetch s = .ok i) : EncodedAt s i := by
  obtain ⟨hfits, hf⟩ | ⟨_, hf⟩ := fetch_cases s <;> cases hf.symm.trans h
  have henc := encode_fetched s
  have hlen := congrArg List.length henc
  rw [List.length_map, List.length_range] at hlen
  have hpos := opLength_pos (opAt s)
  have hfits : s.pc.toNat + opLength (opAt s) - 1 ≤ 255 := hfits
  exact {
    wellFormed := assemble_wellFormed ..
    fits := (congrArg (s.pc.toNat + ·) hlen).trans_le (show s.pc.toNat + opLength (opAt s) ≤ 256 by omega)
    bytes := fun k hk => by
      have := List.getElem_of_eq henc hk
      rw [List.getElem_map, List.getElem_range] at this
      exact this.symm }

/-- An encoding at PC is what the fetch answers. -/
theorem fetch_of_encodedAt {s : State} {i : Instr} (h : EncodedAt s i) : fetch s = .ok i := by
  have hlen : opLength (s.memRead s.pc) = (encode i).length := opLength_opAt_of_encodedAt h
  obtain ⟨_, hf⟩ | ⟨hover, _⟩ := fetch_cases s
  · have hj := encodedAt_of_fetch hf
    have hlen' := opLength_opAt_of_encodedAt hj
    rw [hf, encode_injective hj.wellFormed h.wellFormed]
    refine List.ext_getElem (hlen'.symm.trans hlen) fun k hk hk' => ?_
    rw [← hj.bytes k hk, h.bytes k hk']
  · have := h.fits
    omega

/-- The mnemonic of the instruction fetched is that of the opcode byte. -/
theorem mnemonicOf_of_fetch {s : State} {i : Instr} (h : fetch s = .ok i) : mnemonicOf i = decodeOp (opAt s) := by
  obtain ⟨_, hf⟩ | ⟨_, hf⟩ := fetch_cases s <;> cases hf.symm.trans h
  exact mnemonicOf_assemble ..

/-- Bytes in memory that decode to an instruction encode it at PC. -/
theorem encodedAt_of_decode {s : State} {bs rest : List Byte} {i : Instr} (hfits : s.pc.toNat + bs.length ≤ 256)
    (hbs : ∀ k, (h : k < bs.length) → s.mem.read (s.pc.toNat + k) = bs[k]) (hi : decode bs = .ok (i, rest)) :
    EncodedAt s i := by
  obtain ⟨hwf, rfl⟩ := encodeOfDecode bs rest i hi
  rw [List.length_append] at hfits
  exact {
    wellFormed := hwf
    fits := by omega
    bytes := fun k hk => by
      rw [hbs k (by rw [List.length_append]; omega), List.getElem_append_left hk] }

/-! ### The obligations about the fetch -/

/-- Settles O20: the bytes encode the instruction at PC, so the fetch answers it. -/
theorem stepRunsTheDecodedInstruction : Obligations.StepRunsTheDecodedInstruction := by
  intro s bs i hr hfits hbs hi
  exact step_of_fetch_ok hr (fetch_of_encodedAt (encodedAt_of_decode hfits hbs hi))

/-- Settles O21: the length is `opLength` of the opcode byte, and a fetch that stays in memory answers the instruction
encoded at PC. -/
theorem onlyOwnBytesAreFetched : Obligations.OnlyOwnBytesAreFetched := by
  intro s hr
  refine ⟨opLength (opAt s), ?mnemonic, ?unknown, fun hover => ?overruns, fun hfits => ?fits⟩
  case mnemonic => exact fun m hm => hm ▸ opLength_opc_eq_lengthOf m
  case unknown => exact fun hne => opLength_unknown _ (decodeOp_eq_none hne)
  case overruns =>
    obtain ⟨hfits, _⟩ | ⟨_, hf⟩ := fetch_cases s
    · exact absurd hfits (Nat.not_le.mpr hover)
    · exact step_of_fetch_error hr hf
  case fits =>
    obtain ⟨_, hf⟩ | ⟨hover, _⟩ := fetch_cases s
    · have hi := encodedAt_of_fetch hf
      exact ⟨_, step_of_fetch_ok hr hf, (opLength_opAt_of_encodedAt hi).symm, fun k hk => (hi.bytes k hk).symm⟩
    · exact absurd hfits (Nat.not_le.mpr hover)

theorem decode_tableBytes_of_decodeTableWord {nbits w : Nat} {i : Instr} (h : decodeTableWord nbits w = some i) :
    ∃ rest, decode (tableBytes nbits w) = .ok (i, rest) := by
  unfold decodeTableWord at h
  split at h
  case h_1 j rest hd => cases h; exact ⟨rest, hd⟩
  case h_2 => cases h

/-- The three bytes of a placed word stand at PC, where they fit. -/
theorem read_withFetchWord {s : State} (hpc : s.pc.toNat ≤ 253) (nbits w k : Nat)
    (hk : k < (tableBytes nbits w).length) :
    (s.withFetchWord nbits w).mem.read (s.pc.toNat + k) = (tableBytes nbits w)[k] := by
  have hlen : (tableBytes nbits w).length = 3 := rfl
  have hall : (tableBytes nbits w).take (Config.memSize - s.pc.toNat) = tableBytes nbits w :=
    List.take_of_length_le (by rw [hlen, Config.memSize]; omega)
  change (s.mem.store s.pc.toNat ((tableBytes nbits w).take _)).read _ = _
  rw [hall, Memory.read_store, if_pos ⟨by omega, by omega⟩, Nat.add_sub_cancel_left, List.getD_eq_getElem _ _ hk]

/-- Settles O43: the placed bytes stand at PC, decode to the instruction, and RUN is RUNNING. -/
theorem placedWordIsExecuted : Obligations.PlacedWordIsExecuted := by
  intro s nbits w i hpc hw
  obtain ⟨rest, hd⟩ := decode_tableBytes_of_decodeTableWord hw
  have hlen : (tableBytes nbits w).length = 3 := rfl
  have hi : EncodedAt (s.withFetchWord nbits w) i :=
    encodedAt_of_decode (show s.pc.toNat + _ ≤ 256 by omega) (read_withFetchWord hpc nbits w) hd
  exact step_of_fetch_ok rfl (fetch_of_encodedAt hi)

end Sys2Proof.Fetching
end

section
/-! The instructions that print, compute and jump, with their faults: each statement is its outcomes of `Executes`, read
through the two ends of the sequential advance (41_load_output.md, 42_alu.md, 44_jump.md). -/

namespace Sys2Proof.Meanings

open Sys2Proof.Machine Sys2Proof.Claims Sys2Proof.Encoding Sys2Proof.Dispatcher Sys2Proof.LoadOutput Sys2Proof.Jump

/-! ### The shapes the statements share -/

/-- The two ends of an instruction that advances past its effects `e`, for a running machine
(40_dispatcher_hlt_unknown.md R75). -/
theorem exec_of_advance {i : Instr} {len : Nat} {s e : State} (h : exec i s = .next (advance len e))
    (hpc : e.pc = s.pc) (hrun : e.run = s.run) :
    (s.pc.toNat + len ≤ 255 → exec i s = .next { e with pc := s.pc + trunc8 len }) ∧ OverrunsAfter i len s e := by
  rw [← hpc]
  refine ⟨fun hfits => ?fits, fun hover hr => ?overruns⟩
  case fits => rw [h, advance_of_fits hfits]
  case overruns => rw [h, advance_of_overruns (hpc ▸ hover) (hrun.trans hr), hpc]

theorem find_selector_first {i : Instr} {a : Byte} {l : List Byte} (hi : selectors i = a :: l) (ha : 8 ≤ a.toNat) :
    (selectors i).find? (fun b => decide (8 ≤ b.toNat)) = some a := by
  rw [hi, List.find?_cons_of_pos (by simpa using ha)]

theorem find_selector_second {i : Instr} {a b : Byte} (hi : selectors i = [a, b]) (ha : a.toNat < 8)
    (hb : 8 ≤ b.toNat) : (selectors i).find? (fun b => decide (8 ≤ b.toNat)) = some b := by
  rw [hi, List.find?_cons_of_neg (by simpa using ha), List.find?_cons_of_pos (by simpa using hb)]

/-- An instruction with two register operands checks `a` before `b`, both before anything else. -/
theorem faultsOnSelector_of_two {i : Instr} {a b : Byte} (hi : selectors i = [a, b]) (s : State) :
    FaultsOnSelector i a s ∧ (a.toNat < 8 → FaultsOnSelector i b s) :=
  ⟨fun ha => executes_exec i s _ (.regIndex i a (find_selector_first hi ha)),
    fun ha hb => executes_exec i s _ (.regIndex i b (find_selector_second hi ha hb))⟩

/-! ### PRN and MUL -/

/-- Settles O3: the event is emitted before the advance by 2, so both its ends keep it. -/
theorem prnPrintsItsRegister : Obligations.PrnPrintsItsRegister :=
  ⟨fun a _ r ha => exec_of_advance (executes_exec _ _ _ (.prn a r ha)) rfl rfl,
    fun _ => faultsOnSelector_of_selectors rfl, fetchedAs2_of_lengthOf (m := .prn) rfl⟩

/-- Settles O4: the product of the two natural numbers is emitted before the advance by 3. -/
theorem mulPrintsTheWholeProduct : Obligations.MulPrintsTheWholeProduct :=
  ⟨fun a b _ r q ha hb => exec_of_advance (executes_exec _ _ _ (.mul a b r q ha hb)) rfl rfl,
    fun _ _ => faultsOnSelector_of_two rfl, fetchedAs3_of_lengthOf (m := .mul) rfl⟩

/-! ### ADD and CMP -/

/-- Settles O5: the sum is truncated to a byte and written before the advance by 3. -/
theorem addIsModulo256 : Obligations.AddIsModulo256 := by
  refine ⟨fun a b s r q ha hb => ⟨trunc8 (s.x[r].toNat + s.x[q].toNat), trunc8_toNat _, ?sum⟩,
    fun a b => faultsOnSelector_of_two rfl, fetchedAs3_of_lengthOf (m := .add) rfl⟩
  case sum => exact exec_of_advance (executes_exec _ _ _ (.add a b r q ha hb)) rfl rfl

@[simp] theorem compareFlags_l (va vb : Byte) : (compareFlags va vb).l = true ↔ va.toNat < vb.toNat := by
  simp [compareFlags]

@[simp] theorem compareFlags_g (va vb : Byte) : (compareFlags va vb).g = true ↔ vb.toNat < va.toNat := by
  simp [compareFlags]

@[simp] theorem compareFlags_e (va vb : Byte) : (compareFlags va vb).e = true ↔ va = vb := by
  simp [compareFlags, BitVec.toNat_inj]

/-- The unsigned order is total: exactly one of below, above and equal holds. -/
theorem compareFlags_exactlyOne (va vb : Byte) : (compareFlags va vb).exactlyOne = true := by
  obtain h | h | h := Nat.lt_trichotomy va.toNat vb.toNat
  · simp [compareFlags, Flags.exactlyOne, Flags.atMostOne, h, Nat.lt_asymm h, Nat.ne_of_lt h]
  · simp [compareFlags, Flags.exactlyOne, Flags.atMostOne, h]
  · simp [compareFlags, Flags.exactlyOne, Flags.atMostOne, h, Nat.lt_asymm h, Nat.ne_of_gt h]

/-- Settles O6: the flags of the unsigned comparison are written before the advance by 3. -/
theorem cmpWritesAllThreeFlags : Obligations.CmpWritesAllThreeFlags := by
  refine ⟨fun a b s r q ha hb => ⟨compareFlags s.x[r] s.x[q], compareFlags_l _ _, compareFlags_g _ _,
    compareFlags_e _ _, compareFlags_exactlyOne _ _, ?flags⟩, fun a b => faultsOnSelector_of_two rfl,
    fetchedAs3_of_lengthOf (m := .cmp) rfl⟩
  case flags => exact exec_of_advance (executes_exec _ _ _ (.cmp a b r q ha hb)) rfl rfl

/-- Settles O39: the two functions of the ALU, as `trunc8` and `compareFlags` give them. -/
theorem aluComputesSumAndOrder : Obligations.AluComputesSumAndOrder := fun va vb =>
  ⟨⟨_, rfl, trunc8_toNat _⟩, _, rfl, compareFlags_l va vb, compareFlags_g va vb, compareFlags_e va vb⟩

/-! ### JEQ -/

/-- Settles O12: FL.E alone decides between the jump and the advance by 2; the selector is checked before FL.E is
looked at. -/
theorem jeqJumpsOnEqual : Obligations.JeqJumpsOnEqual :=
  ⟨fun a s r ha he => executes_exec _ s _ (.jeqTaken a r ha he),
    fun a _ ha he => exec_of_advance (executes_exec _ _ _ (.jeqNotTaken a ha he)) rfl rfl,
    fun _ => faultsOnSelector_of_selectors rfl, fetchedAs2_of_lengthOf (m := .jeq) rfl⟩

end Sys2Proof.Meanings
end

section
/-! How an instruction ends: it advances, halts, jumps or takes a fault before any effect. The statements about HLT and
about RUN follow (10_state.md R20, 40_dispatcher_hlt_unknown.md R71, R75, R76). -/

namespace Sys2Proof.Endings

open Sys2Proof.Machine Sys2Proof.Claims Sys2Proof.Encoding Sys2Proof.Dispatcher Sys2Proof.StackCall Sys2Proof.Fetching
open Sys2Proof.Jump

/-! ### The endings of an instruction -/

/-- The instruction goes on with the one after it when it raises nothing (10_state.md R15): it is neither HLT nor CALL,
RET, JMP or a conditional jump that is taken. -/
def GoesOn (s : State) : Instr → Prop
  | .hlt | .call _ | .ret | .jmp _ => False
  | .jeq _ => s.fl.e = false
  | .jne _ => s.fl.e = true
  | .ldi _ _ | .prn _ | .mul _ _ | .add _ _ | .push _ | .pop _ | .cmp _ _ | .unknown _ => True

/-- The faults that an instruction takes before it changes anything (60_exceptions.md R141, R146). -/
inductive Raises (s : State) : Instr → Cause → Prop
  | regIndex (i : Instr) (b : Byte) (hb : (selectors i).find? (fun b => decide (8 ≤ b.toNat)) = some b) :
      Raises s i (.outOfBounds .regIndex (b.toNat : Int))
  | returnAddr (a : Byte) (ha : a.toNat < 8) (hpc : 255 < s.pc.toNat + 2) :
      Raises s (.call a) (.outOfBounds .returnAddr ((s.pc.toNat + 2 : Nat) : Int))
  | pushAtLimit (a : Byte) (ha : a.toNat < 8) (hsp : s.x[7].toNat ≤ Config.stackLimit.toNat) :
      Raises s (.push a) (.outOfBounds .stackAddr ((s.x[7].toNat : Int) - 1))
  | callAtLimit (a : Byte) (ha : a.toNat < 8) (hpc : s.pc.toNat + 2 ≤ 255)
      (hsp : s.x[7].toNat ≤ Config.stackLimit.toNat) :
      Raises s (.call a) (.outOfBounds .stackAddr ((s.x[7].toNat : Int) - 1))
  | popAtTop (a : Byte) (htop : PopPassesTop a s) : Raises s (.pop a) (.outOfBounds .stackAddr 256)
  | retAtTop (hsp : s.x[7].toNat = 255) : Raises s .ret (.outOfBounds .stackAddr 256)

/-- How an instruction ends. In `advances` the effects `e` come before the advance and do not depend on PC. -/
inductive Ending (s : State) (i : Instr) (t : State) : Prop
  | advances (e : State) (hgo : GoesOn s i) (ht : t = advance (encode i).length e) (hpc : e.pc = s.pc)
      (hrun : e.run = s.run)
      (hany : ∀ p, Executes (s.setPc p) i (advance (encode i).length (e.setPc p)))
  | halts (hi : i = .hlt) (ht : t = advance 1 (s.setRun .halted))
  | jumps (hgo : ¬ GoesOn s i) (hrun : t.run = s.run)
  | raises (c : Cause) (hc : Raises s i c) (ht : t = raise c s)

/-- Every outcome of an instruction is one of these endings. -/
theorem executes_ending {s t : State} {i : Instr} (h : Executes s i t) : Ending s i t := by
  cases h
  case hlt => exact .halts rfl rfl
  case ldi a imm r ha => exact .advances _ trivial rfl rfl rfl fun p => .ldi a imm r ha
  case prn a r ha => exact .advances _ trivial rfl rfl rfl fun p => .prn a r ha
  case mul a b r q ha hb => exact .advances _ trivial rfl rfl rfl fun p => .mul a b r q ha hb
  case add a b r q ha hb => exact .advances _ trivial rfl rfl rfl fun p => .add a b r q ha hb
  case cmp a b r q ha hb => exact .advances _ trivial rfl rfl rfl fun p => .cmp a b r q ha hb
  case push a r ha hsp => exact .advances _ trivial rfl rfl rfl fun p => .push a r ha hsp
  case popOther a r ha hr hsp => exact .advances _ trivial rfl rfl rfl fun p => .popOther a r ha hr hsp
  case popSp a ha hv => exact .advances _ trivial rfl rfl rfl fun p => .popSp a ha hv
  case jeqNotTaken a ha he => exact .advances s he rfl rfl rfl fun p => .jeqNotTaken a ha he
  case jneNotTaken a ha he => exact .advances s he rfl rfl rfl fun p => .jneNotTaken a ha he
  case unknown op => exact .advances _ trivial rfl rfl rfl fun p => .unknown op
  case call | ret | jmp => exact .jumps nofun rfl
  case jeqTaken he => exact .jumps (by simp [GoesOn, he]) rfl
  case jneTaken he => exact .jumps (by simp [GoesOn, he]) rfl
  case regIndex b hb => exact .raises _ (.regIndex i b hb) rfl
  case returnAddr a ha hpc => exact .raises _ (.returnAddr a ha hpc) rfl
  case pushAtLimit a ha hsp => exact .raises _ (.pushAtLimit a ha hsp) rfl
  case callAtLimit a ha hpc hsp => exact .raises _ (.callAtLimit a ha hpc hsp) rfl
  case popOtherAtTop a ha hsp => exact .raises _ (.popAtTop a (.inl ⟨ha, hsp⟩)) rfl
  case popSpAtTop a ha hv => exact .raises _ (.popAtTop a (.inr ⟨ha, hv⟩)) rfl
  case retAtTop hsp => exact .raises _ (.retAtTop hsp) rfl

/-- NextFetch is not among the faults before any effect. -/
theorem Raises.ne_nextFetch {s : State} {i : Instr} {c : Cause} (h : Raises s i c) (v : Int) :
    c ≠ .outOfBounds .nextFetch v := by
  cases h <;> nofun

/-! ### The steps of a running machine -/

/-- What a running machine's step does: it executes the instruction fetched, or takes OperandFetch. -/
theorem step_running {s t : State} (hr : s.run = .running) (h : step s = .next t) :
    (∃ i, EncodedAt s i ∧ step s = exec i s ∧ Executes s i t) ∨
    (255 < s.pc.toNat + opLength (opAt s) - 1 ∧
      t = raise (.outOfBounds .operandFetch ((s.pc.toNat + opLength (opAt s) - 1 : Nat) : Int)) s) := by
  obtain ⟨_, i, hf, hs⟩ | ⟨_, c, hf, hs⟩ | ⟨hn, _⟩ := step_cases s
  · exact .inl ⟨i, encodedAt_of_fetch hf, hs, exec_executes i s t (hs ▸ h)⟩
  · obtain ⟨_, hok⟩ | ⟨hover, herr⟩ := fetch_cases s
    · cases hok.symm.trans hf
    · cases herr.symm.trans hf
      cases hs.symm.trans h
      exact .inr ⟨hover, rfl⟩
  · exact absurd hr hn

theorem step_of_not_running {s : State} (h : s.run ≠ .running) : step s = .next s := by
  obtain ⟨hr, _⟩ | ⟨hr, _⟩ | ⟨_, hs⟩ := step_cases s
  · exact absurd hr h
  · exact absurd hr h
  · exact hs

theorem opAt_of_mnemonicOf {s : State} {i : Instr} {m : Mnemonic} (hi : EncodedAt s i) (hm : mnemonicOf i = some m) :
    opAt s = opc m :=
  (opc_of_decodeOp _ m ((mnemonicOf_of_fetch (fetch_of_encodedAt hi)).symm.trans hm)).symm

theorem mnemonicOf_of_opAt {s : State} {i : Instr} {m : Mnemonic} (hi : EncodedAt s i) (hop : opAt s = opc m) :
    mnemonicOf i = some m := by
  rw [mnemonicOf_of_fetch (fetch_of_encodedAt hi), hop, decodeOp_opc]

/-! ### RUN -/

theorem advance_run_of_fits {len : Nat} {e : State} (h : e.pc.toNat + len ≤ 255) : (advance len e).run = e.run := by
  rw [advance_of_fits h]

theorem advance_of_not_running {len : Nat} {e : State} (h : e.run ≠ .running) :
    (advance len e).run = e.run := by
  obtain ⟨hfits, _⟩ | ⟨_, hr, _⟩ | ⟨_, _, ha⟩ := advance_cases len e
  · exact advance_run_of_fits hfits
  · exact absurd hr h
  · rw [ha]

/-- The advance keeps RUN or raises NextFetch. -/
theorem advance_run_cases (len : Nat) (e : State) :
    (advance len e).run = e.run ∨
    (255 < e.pc.toNat + len ∧ e.run = .running ∧
      advance len e = raise (.outOfBounds .nextFetch ((e.pc.toNat + len : Nat) : Int)) e) := by
  obtain ⟨hfits, _⟩ | hover | ⟨_, hn, _⟩ := advance_cases len e
  · exact .inl (advance_run_of_fits hfits)
  · exact .inr hover
  · exact .inl (advance_of_not_running hn)

theorem exec_hlt_run (s : State) : ∃ t, exec .hlt s = .next t ∧ t.run = .halted :=
  ⟨_, rfl, advance_of_not_running (e := s.setRun .halted) nofun⟩

theorem step_of_hlt {s : State} (hr : s.run = .running) (hop : opAt s = opc .hlt) :
    ∃ t, step s = .next t ∧ t.run = .halted := by
  rw [fetchedAs1_of_lengthOf (m := .hlt) rfl s hr hop]
  exact exec_hlt_run s

/-- Only HLT reaches HALTED. -/
theorem eq_hlt_of_halted {s t : State} {i : Instr} (h : Executes s i t) (hs : s.run ≠ .halted)
    (ht : t.run = .halted) : i = .hlt := by
  cases executes_ending h with
  | halts hi _ => exact hi
  | advances e _ hadv _ hrun _ =>
    obtain hkeep | ⟨_, _, hover⟩ := advance_run_cases (encode i).length e
    · exact absurd (by rw [← hrun, ← hkeep, ← hadv, ht]) hs
    · rw [hadv, hover] at ht
      cases ht
  | jumps _ hrun => exact absurd (hrun.symm.trans ht) hs
  | raises c _ hraise => rw [hraise] at ht; cases ht

/-- Settles O22, by induction on the number of steps: each is a step to the same state. -/
theorem stoppedMachineStaysAsItIs : Obligations.StoppedMachineStaysAsItIs := by
  intro s hs k
  induction k with
  | zero => rfl
  | succ k ih => exact (run_succ_of_step core k s s (step_of_not_running hs)).trans ih

/-- Settles O1: HALTED is set before the advance by 1, which then raises nothing; a halted machine takes no step. -/
theorem hltHaltsAndNothingFollows : Obligations.HltHaltsAndNothingFollows := by
  refine ⟨fun s hpc => ?fits, fun s hpc => ?last, fun i s t h hs ht => eq_hlt_of_halted (exec_executes i s t h) hs ht,
    fun s t h k => ?stays, fetchedAs1_of_lengthOf (m := .hlt) rfl⟩
  case fits => exact congrArg Host.Outcome.next (advance_of_fits (s := s.setRun .halted) (Nat.succ_le_succ hpc))
  case last =>
    obtain ⟨hfits, _⟩ | ⟨_, hr, _⟩ | ⟨_, _, ha⟩ := advance_cases 1 (s.setRun .halted)
    · exact absurd hfits (by rw [State.setRun_pc, hpc]; decide)
    · cases hr
    · exact congrArg Host.Outcome.next ha
  case stays =>
    obtain ⟨u, hu, hhalt⟩ := exec_hlt_run s
    cases h.symm.trans hu
    exact stoppedMachineStaysAsItIs t (by rw [hhalt]; nofun) k

/-- Settles O30: HLT alone halts, and the opcode byte at PC decides whether the instruction is HLT. -/
theorem runStateTransitions : Obligations.RunStateTransitions := by
  intro s t h
  refine ⟨fun hr => ⟨fun ht => ?opcode, fun hop => ?halts⟩, fun hstop => ?stopped⟩
  case opcode =>
    obtain ⟨i, hi, _, hx⟩ | ⟨_, hraise⟩ := step_running hr h
    · obtain rfl := eq_hlt_of_halted hx (by rw [hr]; nofun) ht
      exact opAt_of_mnemonicOf hi rfl
    · rw [State.endedWell, hraise] at ht
      cases ht
  case halts =>
    obtain ⟨u, hu, hhalt⟩ := step_of_hlt hr hop
    cases h.symm.trans hu
    exact hhalt
  case stopped =>
    have hn : s.run ≠ .running := by
      obtain hs | ⟨c, hs⟩ := hstop <;> rw [hs] <;> nofun
    exact Host.Outcome.next.inj (h.symm.trans (step_of_not_running hn))

end Sys2Proof.Endings
end

section
/-! PUSH, POP, CALL and RET with their faults, for any STACK_LIMIT, and what follows for two of them in a row and for a
store that the next fetch sees (20_memory.md section 6, 43_stack_call.md). -/

namespace Sys2Proof.Stack

open Sys2Proof.Machine Sys2Proof.Claims Sys2Proof.Encoding Sys2Proof.Dispatcher Sys2Proof.LoadOutput Sys2Proof.Jump
open Sys2Proof.StackCall Sys2Proof.Meanings Sys2Proof.Endings

/-! ### The store below SP -/

/-- SP - 1, and a byte stored there: the effects PUSH and CALL share (43_stack_call.md R111, R113). -/
def pushed (s : State) (v : Byte) : State :=
  { s with x := s.x.set 7 (s.x[7] - 1), mem := s.mem.write (s.x[7].toNat - 1) v }

/-- `x[r]` as PUSH and CALL read it, after the decrement of SP (the spec's decision D14). -/
def operandBelow (s : State) (r : Fin 8) : Byte := if r = 7 then s.x[7] - 1 else s.x[r]

theorem toNat_pred {b : Byte} (h : 0 < b.toNat) : (b - 1).toNat = b.toNat - 1 :=
  BitVec.toNat_sub_of_le (BitVec.le_def.mpr h)

theorem toNat_pred_le {b : Byte} (h : 0 < b.toNat) : (b - 1).toNat ≤ 254 := by
  have := b.isLt
  rw [toNat_pred h]
  omega

theorem trunc8_toNat_pred {b : Byte} (h : 0 < b.toNat) : trunc8 (b.toNat - 1) = b - 1 := by
  rw [← toNat_pred h, trunc8, BitVec.ofNat_toNat, BitVec.setWidth_eq]

section
variable {s : State} (h : 0 < s.x[7].toNat)
include h

theorem afterPreDecrement_eq : afterPreDecrement s = { s with x := s.x.set 7 (s.x[7] - 1) } :=
  congrArg s.setSp (trunc8_toNat_pred h)

theorem reg_afterPreDecrement (r : Fin 8) : (afterPreDecrement s).reg r = operandBelow s r := by
  rw [afterPreDecrement, State.reg_setSp, show s.sp = s.x[7] from rfl, trunc8_toNat_pred h, operandBelow]
  exact if_congr eq_comm rfl rfl

theorem memWrite_afterPreDecrement (v : Byte) :
    (afterPreDecrement s).memWrite (trunc8 (s.sp.toNat - 1)) v = pushed s v := by
  rw [afterPreDecrement_eq h, show s.sp = s.x[7] from rfl, trunc8_toNat_pred h, State.memWrite, toNat_pred h]
  rfl

end

/-- The store of PUSH and CALL is exactly one byte, at SP - 1. -/
theorem storesByte_pushed (s : State) (v : Byte) : StoresByte s (pushed s v).mem (s.x[7].toNat - 1) v :=
  ⟨Memory.read_write_self .., fun b hb => by rw [pushed, Memory.read_write, if_neg hb]⟩

/-! ### PUSH and CALL for any limit -/

section
variable {limit a : Byte} {s : State}

theorem pushWith_of_limit_lt {r : Fin 8} (ha : a.toNat = r.val) (h : limit.toNat < s.x[7].toNat) :
    pushWith limit a s = advance 2 (pushed s (operandBelow s r)) := by
  obtain ⟨_, hp⟩ | ⟨hle, _⟩ := pushSlot_cases limit s fun s1 => advance 2 (s1.memWrite s1.sp (s1.reg r))
  · rw [pushWith, withReg_valid a s _ r ha, hp, State.sp_setSp, ← reg_afterPreDecrement (by omega),
      ← memWrite_afterPreDecrement (by omega)]
    rfl
  · exact absurd h (Nat.not_lt.mpr hle)

theorem pushWith_of_le_limit (ha : a.toNat < 8) (h : s.x[7].toNat ≤ limit.toNat) :
    pushWith limit a s = oob s .stackAddr ((s.x[7].toNat : Int) - 1) :=
  (withReg_valid a s _ ⟨a.toNat, ha⟩ rfl).trans (if_pos h)

theorem callWith_of_limit_lt {r : Fin 8} (ha : a.toNat = r.val) (hpc : s.pc.toNat ≤ 253)
    (h : limit.toNat < s.x[7].toNat) :
    callWith limit a s = (pushed s (s.pc + 2)).setPc (operandBelow s r) := by
  obtain ⟨_, hp⟩ | ⟨hle, _⟩ := pushSlot_cases limit s fun s1 => (s1.memWrite s1.sp (s.pc + 2)).setPc (s1.reg r)
  · rw [callWith, withReg_valid a s _ r ha, bounded, if_pos (by omega), trunc8_toNat_add]
    refine hp.trans ?_
    rw [State.sp_setSp, ← reg_afterPreDecrement (by omega), ← memWrite_afterPreDecrement (by omega)]
    rfl
  · exact absurd h (Nat.not_lt.mpr hle)

theorem callWith_of_le_limit (ha : a.toNat < 8) (hpc : s.pc.toNat ≤ 253) (h : s.x[7].toNat ≤ limit.toNat) :
    callWith limit a s = oob s .stackAddr ((s.x[7].toNat : Int) - 1) :=
  (withReg_valid a s _ ⟨a.toNat, ha⟩ rfl).trans ((if_pos (by omega)).trans (if_pos h))

/-- The return address is tested before SP. -/
theorem callWith_of_returnAddr (ha : a.toNat < 8) (hpc : 254 ≤ s.pc.toNat) :
    callWith limit a s = oob s .returnAddr ((s.pc.toNat + 2 : Nat) : Int) :=
  (withReg_valid a s _ ⟨a.toNat, ha⟩ rfl).trans (if_neg (by omega))

theorem pushWith_mem_cases (ha : a.toNat < 8) :
    (pushWith limit a s).mem = s.mem ∨
      limit.toNat < s.x[7].toNat ∧ ∃ v, (pushWith limit a s).mem = (pushed s v).mem := by
  obtain hsp | hsp := Nat.lt_or_ge limit.toNat s.x[7].toNat
  · exact .inr ⟨hsp, _, by rw [pushWith_of_limit_lt (r := ⟨a.toNat, ha⟩) rfl hsp, advance_mem]⟩
  · exact .inl (by rw [pushWith_of_le_limit ha hsp, oob])

theorem callWith_mem_cases (ha : a.toNat < 8) :
    (callWith limit a s).mem = s.mem ∨
      limit.toNat < s.x[7].toNat ∧ ∃ v, (callWith limit a s).mem = (pushed s v).mem := by
  obtain hpc | hpc := Nat.lt_or_ge s.pc.toNat 254
  · obtain hsp | hsp := Nat.lt_or_ge limit.toNat s.x[7].toNat
    · exact .inr ⟨hsp, _, by
        rw [callWith_of_limit_lt (r := ⟨a.toNat, ha⟩) rfl (Nat.le_of_lt_succ hpc) hsp, State.setPc_mem]⟩
    · exact .inl (by rw [callWith_of_le_limit ha (Nat.le_of_lt_succ hpc) hsp, oob])
  · exact .inl (by rw [callWith_of_returnAddr ha hpc, oob])

end

/-- Settles O7: above the limit the push comes before the advance by 2, which keeps it; the selector is checked before
SP. -/
theorem pushStoresBelowSp : Obligations.PushStoresBelowSp := by
  refine ⟨fun a s r ha hsp => ⟨(pushed s (operandBelow s r)).mem, storesByte_pushed s _, ?pushes⟩,
    fun a s ha hsp => ?limit, fun a => faultsOnSelector_of_selectors rfl, fetchedAs2_of_lengthOf (m := .push) rfl⟩
  case pushes =>
    exact exec_of_advance (e := pushed s (operandBelow s r)) (congrArg _ (pushWith_of_limit_lt ha hsp)) rfl rfl
  case limit => exact congrArg _ (pushWith_of_le_limit ha hsp)

/-- Settles O9: the return address is tested first, then SP against the limit, and CALL never advances. -/
theorem callStoresReturnAddress : Obligations.CallStoresReturnAddress := by
  refine ⟨fun a s r ha hpc hsp => ⟨(pushed s (s.pc + 2)).mem, storesByte_pushed s _, ?calls⟩,
    fun a s ha hpc => ?returnAddr, fun a s ha hpc hsp => ?limit, fun a => faultsOnSelector_of_selectors rfl,
    fetchedAs2_of_lengthOf (m := .call) rfl⟩
  case calls => exact congrArg _ (callWith_of_limit_lt ha hpc hsp)
  case returnAddr => exact congrArg _ (callWith_of_returnAddr ha hpc)
  case limit => exact congrArg _ (callWith_of_le_limit ha hpc hsp)

/-- A cell below the limit is below every SP that PUSH and CALL store under. -/
theorem read_pushed_of_lt_limit {limit : Byte} {s : State} (h : limit.toNat < s.x[7].toNat) (v : Byte) {b : Nat}
    (hb : b < limit.toNat) : (pushed s v).mem.read b = s.mem.read b :=
  (storesByte_pushed s v).2 b (by omega)

/-- Settles O47: what PUSH and CALL do at every limit, at it and above it; a fault leaves memory as it was. -/
theorem stackLimitBoundsTheStores : Obligations.StackLimitBoundsTheStores := by
  refine ⟨fun limit a s f hf ha => ⟨fun hsp hpc => ?fault, fun hsp hpc => ?sp, fun b hb => ?below⟩,
    fun limit a s r ha hsp => ⟨?push, fun hpc => ?call⟩⟩
  case fault =>
    obtain rfl | rfl := hf
    · exact pushWith_of_le_limit ha hsp
    · exact callWith_of_le_limit ha hpc hsp
  case sp =>
    obtain rfl | rfl := hf
    · simp [pushWith_of_limit_lt (r := ⟨a.toNat, ha⟩) rfl hsp, pushed]
    · simp [callWith_of_limit_lt (r := ⟨a.toNat, ha⟩) rfl hpc hsp, pushed]
  case below =>
    have hmem : (f limit a s).mem = s.mem ∨
        limit.toNat < s.x[7].toNat ∧ ∃ v, (f limit a s).mem = (pushed s v).mem := by
      obtain rfl | rfl := hf
      · exact pushWith_mem_cases ha
      · exact callWith_mem_cases ha
    obtain hkept | ⟨hsp, v, hpushed⟩ := hmem
    · rw [hkept]
    · rw [hpushed, read_pushed_of_lt_limit hsp v hb]
  case push =>
    rw [pushWith_of_limit_lt ha hsp, advance_mem]
    exact storesByte_pushed s _
  case call =>
    rw [callWith_of_limit_lt ha hpc hsp]
    exact storesByte_pushed s _

/-! ### POP -/

theorem exec_pop_of_ne_sp {a : Byte} {r : Fin 8} {s : State} (ha : a.toNat = r.val) (hr : r ≠ 7)
    (hsp : s.x[7].toNat ≤ 254) :
    exec (.pop a) s = .next (advance 2 ((s.setReg r (s.memRead s.sp)).setSp (s.x[7] + 1))) := by
  have h := executes_exec _ s _ (.popOther a r ha hr (show s.x[7].toNat + 1 ≤ 255 by omega))
  rwa [trunc8_toNat_add] at h

theorem exec_pop_sp {a : Byte} {s : State} (ha : a.toNat = 7) (hv : (s.mem.read s.x[7].toNat).toNat ≤ 254) :
    exec (.pop a) s = .next (advance 2 (s.setSp (s.mem.read s.x[7].toNat + 1))) := by
  have h := executes_exec _ s _ (.popSp a ha (show (s.mem.read s.x[7].toNat).toNat + 1 ≤ 255 by omega))
  rwa [trunc8_toNat_add] at h

/-- Settles O8: the load and the increment come before the advance by 2, which keeps them; with register 7 it is the
loaded byte that is incremented. -/
theorem popLoadsAtSp : Obligations.PopLoadsAtSp := by
  refine ⟨fun a s r ha hr hsp => ?other, fun a s ha hv => ?sp, fun a s htop => ?top,
    fun a => faultsOnSelector_of_selectors rfl, fetchedAs2_of_lengthOf (m := .pop) rfl⟩
  case other => exact exec_of_advance (exec_pop_of_ne_sp ha hr hsp) rfl rfl
  case sp => exact exec_of_advance (exec_pop_sp ha hv) rfl rfl
  case top =>
    obtain ⟨ha, hsp⟩ | ⟨ha, hv⟩ := htop
    · exact executes_exec _ s _ (.popOtherAtTop a ha hsp)
    · exact executes_exec _ s _ (.popSpAtTop a ha hv)

/-! ### One stack instruction after another -/

theorem toNat_add_trunc8 {b : Byte} {n : Nat} (h : b.toNat + n ≤ 255) : (b + trunc8 n).toNat = b.toNat + n := by
  rw [← trunc8_toNat_add, trunc8_toNat]
  exact Nat.mod_eq_of_lt (by omega)

theorem getElem_set_sp (x : Vector Byte 8) (v : Byte) : (x.set 7 v)[7] = v := Vector.getElem_set_self _

theorem getElem_set_sp_pred (x : Vector Byte 8) : (x.set 7 (x[7] - 1))[7] = x[7] - 1 := getElem_set_sp x _

/-- The decrement and the increment of SP cancel, around the load of another register. -/
theorem set_sp_pred_set_succ (x : Vector Byte 8) {q : Fin 8} (hq : q ≠ 7) (v : Byte) :
    ((x.set 7 (x[7] - 1)).set q v).set 7 (x[7] - 1 + 1) = x.set q v := by
  have hq : q.val ≠ 7 := fun h => hq (Fin.ext h)
  refine Vector.ext fun i hi => ?_
  rw [BitVec.sub_add_cancel]
  obtain rfl | hi' := eq_or_ne i 7
  · rw [getElem_set_sp, Vector.getElem_set_ne _ _ hq]
  · simp only [Vector.getElem_set, hi'.symm, if_false]

/-- Settles O44: POP finds the pushed byte at the SP that PUSH left, and both advance within memory. -/
theorem pushThenPop : Obligations.PushThenPop := by
  intro a b r q s ha hb hq hsp hpc
  obtain ⟨m, ⟨hm, hframe⟩, hpush, _⟩ := pushStoresBelowSp.1 a s r ha hsp
  have hx7 := getElem_set_sp_pred s.x
  have hsp' := toNat_pred (Nat.zero_lt_of_lt hsp)
  have htop := toNat_pred_le (Nat.zero_lt_of_lt hsp)
  have hpc' : (s.pc + 2).toNat = s.pc.toNat + 2 := toNat_add_trunc8 (n := 2) (by omega)
  have hpop := ((popLoadsAtSp.1 b { s with x := s.x.set 7 (s.x[7] - 1), mem := m, pc := s.pc + 2 } q hb hq
    (hx7.symm ▸ htop)).1 (show (s.pc + 2).toNat + 2 ≤ 255 by omega))
  refine ⟨_, _, hpush (by omega), hpop, ?x, ?pc, rfl, rfl, rfl, hframe⟩
  case x =>
    dsimp only
    rw [hx7, hsp', hm, set_sp_pred_set_succ s.x hq]
  case pc =>
    dsimp only
    rw [BitVec.add_assoc]
    rfl

/-- Settles O45: RET reads the stored return address at the SP that CALL left. -/
theorem callThenRet : Obligations.CallThenRet := by
  intro a s ha hsp hpc
  obtain ⟨m, ⟨hm, _⟩, hcall⟩ := callStoresReturnAddress.1 a s ⟨a.toNat, ha⟩ rfl hpc hsp
  refine ⟨_, hcall, fun u husp humem => ?_⟩
  dsimp only at husp humem
  have hx7 := getElem_set_sp_pred s.x
  have hsp' := toNat_pred (Nat.zero_lt_of_lt hsp)
  have htop := toNat_pred_le (Nat.zero_lt_of_lt hsp)
  rw [hx7] at husp humem
  refine ⟨_, retPopsThePc.1 u (husp.symm ▸ htop), ?pc, ?sp, rfl⟩
  case pc =>
    dsimp only
    rw [humem, hsp', hm]
    exact toNat_add_trunc8 (n := 2) (by omega)
  case sp =>
    dsimp only
    rw [getElem_set_sp, husp, BitVec.sub_add_cancel]

/-- Settles O46: the next fetch reads memory as the store has left it. -/
theorem storeIsSeenByTheNextFetch : Obligations.StoreIsSeenByTheNextFetch := by
  intro s r hr hop ha hr7 hsp hpc
  obtain ⟨hlimit, _, _, hfetched⟩ := pushStoresBelowSp
  obtain ⟨m, ⟨hm, _⟩, hpush, _⟩ := hlimit (s.mem.read (s.pc.toNat + 1)) s r ha hsp
  have hstep := ((hfetched s hr hop).1 (by omega)).trans (hpush hpc)
  rw [if_neg hr7] at hm
  have hpc' : (s.pc + 2).toNat = s.pc.toNat + 2 := toNat_add_trunc8 (n := 2) hpc
  refine ⟨_, hstep, hpc', hr, fun hnext => ?_, fun hself => hself ▸ hm⟩
  have hop' : m.read (s.pc + 2).toNat = s.x[r] := by rw [hpc', ← hnext, hm]
  exact ⟨hop', fun hhlt => step_of_hlt hr (hop'.trans hhlt)⟩

end Sys2Proof.Stack
end

section
/-! What each instruction leaves unchanged, field by field, and the statements that say so (10_state.md sections 1, 3,
5, 6). -/

namespace Sys2Proof.Frames

open Sys2Proof.Machine Sys2Proof.Claims Sys2Proof.Encoding Sys2Proof.Dispatcher Sys2Proof.Fetching Sys2Proof.Meanings
open Sys2Proof.Endings Sys2Proof.Stack

/-! ### Memory -/

@[simp] theorem afterPreDecrement_mem (s : State) : (afterPreDecrement s).mem = s.mem := rfl
@[simp] theorem afterPreDecrement_fl (s : State) : (afterPreDecrement s).fl = s.fl := rfl

/-- Only PUSH and CALL write memory: one byte, at SP - 1 (43_stack_call.md R111, R113). -/
theorem executes_mem {i : Instr} {s t : State} (h : Executes s i t) :
    t.mem = s.mem ∨ ∃ a v, (i = .push a ∨ i = .call a) ∧ Config.stackLimit.toNat < s.x[7].toNat ∧
      t.mem = s.mem.write (s.x[7].toNat - 1) v := by
  cases h
  case push a r ha hsp =>
    refine .inr ⟨a, (afterPreDecrement s).reg r, .inl rfl, hsp, ?_⟩
    rw [advance_mem, memWrite_afterPreDecrement (Nat.zero_lt_of_lt hsp), pushed]
  case call a r ha hpc hsp =>
    refine .inr ⟨a, trunc8 (s.pc.toNat + 2), .inr rfl, hsp, ?_⟩
    rw [State.setPc_mem, memWrite_afterPreDecrement (Nat.zero_lt_of_lt hsp), pushed]
  all_goals exact .inl (by simp)

/-- Settles O34: the one byte that PUSH or CALL writes is the only one that can read differently. -/
theorem onlyPushAndCallStore : Obligations.OnlyPushAndCallStore := by
  intro i s t b h hne
  obtain hmem | ⟨a, v, hi, hsp, hmem⟩ := executes_mem (exec_executes i s t h)
  · exact absurd (congrArg (·.read b) hmem) hne
  · refine ⟨⟨a, hi⟩, hsp, by_contra fun hb => hne ?_⟩
    rw [hmem, Memory.read_write, if_neg hb]

/-! ### The Sink -/

/-- The event that an instruction emits from a state. -/
def Emits (s : State) (i : Instr) (e : Event) : Prop :=
  (∃ (a : Byte) (r : Fin 8), i = .prn a ∧ a.toNat = r.val ∧ e = .print s.x[r].toNat) ∨
  (∃ (a b : Byte) (r q : Fin 8), i = .mul a b ∧ a.toNat = r.val ∧ b.toNat = q.val ∧
    e = .print (s.x[r].toNat * s.x[q].toNat)) ∨
  (∃ op, i = .unknown op ∧ e = .diag op)

/-- An instruction emits nothing, or the one event it has. -/
theorem executes_emits {i : Instr} {s t : State} (h : Executes s i t) :
    t.out = s.out ∨ ∃ e, t.out = s.out ++ [e] ∧ Emits s i e := by
  cases h
  case prn a r ha => exact .inr ⟨_, advance_out .., .inl ⟨a, r, rfl, ha, rfl⟩⟩
  case mul a b r q ha hb => exact .inr ⟨_, advance_out .., .inr (.inl ⟨a, b, r, q, rfl, ha, hb, rfl⟩)⟩
  case unknown op => exact .inr ⟨_, advance_out .., .inr (.inr ⟨op, rfl, rfl⟩)⟩
  all_goals exact .inl (by simp)

/-- Settles O36: an instruction that changes the stream has emitted its event. -/
theorem sinkEventsByInstruction : Obligations.SinkEventsByInstruction := by
  intro i s t h hne
  obtain hout | hout := executes_emits (exec_executes i s t h)
  · exact absurd hout hne
  · exact hout

/-! ### The flags -/

/-- Only CMP with two registers writes the flags (10_state.md R18). -/
theorem executes_fl {i : Instr} {s t : State} (h : Executes s i t) :
    t.fl = s.fl ∨ ∃ (a b : Byte) (r q : Fin 8), i = .cmp a b ∧ a.toNat = r.val ∧ b.toNat = q.val ∧
      t.fl = compareFlags (s.reg r) (s.reg q) := by
  cases h
  case cmp a b r q ha hb => exact .inr ⟨a, b, r, q, rfl, ha, hb, advance_fl ..⟩
  all_goals exact .inl (by simp)

/-- A step changes the flags only by a CMP. -/
theorem step_fl {s t : State} (h : step s = .next t) :
    t.fl = s.fl ∨ opAt s = opc .cmp ∧ ∃ va vb, t.fl = compareFlags va vb := by
  by_cases hr : s.run = .running
  · obtain ⟨i, hi, _, hx⟩ | ⟨_, ht⟩ := step_running hr h
    · obtain hfl | ⟨a, b, r, q, rfl, _, _, hfl⟩ := executes_fl hx
      · exact .inl hfl
      · exact .inr ⟨opAt_of_mnemonicOf hi rfl, _, _, hfl⟩
    · exact .inl (by rw [ht, raise_fl])
  · cases h.symm.trans (step_of_not_running hr)
    exact .inl rfl

theorem exec_cmp_fl {a b : Byte} {s t : State} {r q : Fin 8} (ha : a.toNat = r.val) (hb : b.toNat = q.val)
    (h : exec (.cmp a b) s = .next t) : t.fl = compareFlags (s.reg r) (s.reg q) := by
  cases h.symm.trans (executes_exec _ s _ (.cmp a b r q ha hb))
  exact advance_fl ..

/-! ### The registers -/

theorem reg_setReg_of_ne {s : State} {r q : Fin 8} (h : r ≠ q) (v : Byte) : (s.setReg r v).reg q = s.reg q := by
  rw [State.reg_setReg, if_neg h]

theorem ne_of_selector_ne {a : Byte} {q r : Fin 8} (ha : a.toNat = q.val) (h : ¬ a.toNat = r.val) : q ≠ r :=
  fun hqr => h (hqr ▸ ha)

/-- A register that the table of 10_state.md R12 does not list as written is unchanged. -/
theorem executes_reg {i : Instr} {s t : State} {r : Fin 8} (h : Executes s i t) (hr : ¬ WritesReg i r) :
    t.reg r = s.reg r := by
  have sp_ne (h7 : ¬ r = 7) : spIndex ≠ r := fun h => h7 h.symm
  cases h
  case ldi a imm q ha => exact (advance_reg ..).trans (reg_setReg_of_ne (ne_of_selector_ne ha hr) imm)
  case add a b q p ha hb => exact (advance_reg ..).trans (reg_setReg_of_ne (ne_of_selector_ne ha hr) _)
  case push a q ha hsp => exact (advance_reg ..).trans (reg_setReg_of_ne (sp_ne hr) _)
  case call a q ha hpc hsp => exact reg_setReg_of_ne (sp_ne hr) _
  case ret hsp => exact reg_setReg_of_ne (sp_ne hr) _
  case popSp a ha hv => exact (advance_reg ..).trans (reg_setReg_of_ne (sp_ne fun h => hr (.inr h)) _)
  case popOther a q ha hq hsp =>
    rw [advance_reg, State.setSp, reg_setReg_of_ne (sp_ne fun h => hr (.inr h)),
      reg_setReg_of_ne (ne_of_selector_ne ha fun h => hr (.inl h))]
  all_goals simp

end Sys2Proof.Frames
end

section
/-! The invariant of the state: every step keeps it, field by field, and the reset state has it (10_state.md
section 9). -/

namespace Sys2Proof.Invariants

open Sys2Proof.Machine Sys2Proof.Claims Sys2Proof.Encoding Sys2Proof.Dispatcher Sys2Proof.Fetching Sys2Proof.Meanings
open Sys2Proof.Endings Sys2Proof.Stack Sys2Proof.Frames

/-! ### Each field of the invariant -/

theorem executes_mem_wf {i : Instr} {s t : State} (h : Executes s i t) (hs : s.mem.wf = true) : t.mem.wf = true := by
  obtain hmem | ⟨_, v, _, _, hmem⟩ := executes_mem h <;> rw [hmem]
  · exact hs
  · exact Memory.wf_write _ _ v hs (Nat.lt_of_le_of_lt (Nat.sub_le ..) s.x[7].isLt)

theorem compareFlags_atMostOne (va vb : Byte) : (compareFlags va vb).atMostOne = true :=
  (Bool.and_eq_true_iff.mp (compareFlags_exactlyOne va vb)).1

theorem executes_atMostOne {i : Instr} {s t : State} (h : Executes s i t) (hs : s.fl.atMostOne = true) :
    t.fl.atMostOne = true := by
  obtain hfl | ⟨_, _, r, q, _, _, _, hfl⟩ := executes_fl h <;> rw [hfl]
  · exact hs
  · exact compareFlags_atMostOne ..

/-- A register holds at most 255, so PRN emits at most 255 and MUL at most 255 * 255. -/
theorem possible_of_emits {s : State} {i : Instr} {e : Event} (hi : i.wellFormed = true) (h : Emits s i e) :
    e.possible = true := by
  obtain ⟨_, r, _, _, rfl⟩ | ⟨_, _, r, q, _, _, _, rfl⟩ | ⟨op, rfl, rfl⟩ := h
  · have := s.x[r].isLt
    exact decide_eq_true (by omega)
  · exact decide_eq_true (Nat.mul_le_mul (Nat.le_of_lt_succ s.x[r].isLt) (Nat.le_of_lt_succ s.x[q].isLt))
  · exact hi

theorem executes_out_possible {i : Instr} {s t : State} (h : Executes s i t) (hi : i.wellFormed = true)
    (hs : ∀ e ∈ s.out, e.possible = true) : ∀ e ∈ t.out, e.possible = true := by
  obtain hout | ⟨e, hout, he⟩ := executes_emits h <;> rw [hout]
  · exact hs
  · simpa [or_imp, forall_and] using ⟨hs, possible_of_emits hi he⟩

/-- The faults before any effect are listed, each with its value (60_exceptions.md R141). -/
theorem listed_of_raises {s : State} {i : Instr} {c : Cause} (hi : EncodedAt s i) (h : Raises s i c) :
    c.listed = true := by
  cases h with
  | regIndex i b hb =>
    have h8 : 8 ≤ b.toNat := by simpa using List.find?_some hb
    have := b.isLt
    exact decide_eq_true (by omega)
  | returnAddr a ha hpc =>
    have hfits : s.pc.toNat + 2 ≤ 256 := hi.fits
    exact decide_eq_true (by omega)
  | pushAtLimit a ha hsp => exact decide_eq_true (by omega)
  | callAtLimit a ha hpc hsp => exact decide_eq_true (by omega)
  | popAtTop a htop => rfl
  | retAtTop hsp => rfl

/-- The successor of an instruction within memory begins at 256 at the latest, so NextFetch records 256. -/
theorem advance_possible {len : Nat} {e : State} (hfits : e.pc.toNat + len ≤ 256) (he : e.run.possible = true) :
    (advance len e).run.possible = true := by
  obtain hkeep | ⟨hover, _, hraise⟩ := advance_run_cases len e
  · rw [hkeep, he]
  · rw [hraise]
    exact decide_eq_true (by omega)

theorem executes_run_possible {i : Instr} {s t : State} (hi : EncodedAt s i) (h : Executes s i t)
    (hs : s.run.possible = true) : t.run.possible = true := by
  cases executes_ending h with
  | advances e _ hadv hpc hrun _ =>
    rw [hadv]
    exact advance_possible (hpc ▸ hi.fits) (hrun ▸ hs)
  | halts _ hadv => rw [hadv, advance_of_not_running (e := s.setRun .halted) nofun]; rfl
  | jumps _ hrun => rw [hrun, hs]
  | raises c hc hraise => rw [hraise]; exact listed_of_raises hi hc

/-! ### The obligations -/

/-- Settles O24: an instruction fetched within memory keeps each field of the invariant; OperandFetch changes RUN alone,
with a value of at most 255 + 2. -/
theorem stepKeepsInv : Obligations.StepKeepsInv := by
  rintro s t ⟨hmem, hfl, hout, hrun⟩ h
  by_cases hr : s.run = .running
  · obtain ⟨i, hi, _, hx⟩ | ⟨hover, rfl⟩ := step_running hr h
    · exact ⟨executes_mem_wf hx hmem, executes_atMostOne hx hfl, executes_out_possible hx hi.wellFormed hout,
        executes_run_possible hi hx hrun⟩
    · have hlen := opLength_le (opAt s)
      have hpc := s.pc.isLt
      exact ⟨hmem, hfl, hout, decide_eq_true (by omega)⟩
  · cases h.symm.trans (step_of_not_running hr)
    exact ⟨hmem, hfl, hout, hrun⟩

/-- Settles O25: reset takes the memory as given and clears the flags, OUT and RUN. -/
theorem resetMeetsInv : Obligations.ResetMeetsInv :=
  have reset_inv (gpr : Vector Byte 7) (mem : Memory) (hmem : mem.wf = true) : (State.resetWith gpr mem).Inv :=
    ⟨hmem, rfl, nofun, rfl⟩
  ⟨reset_inv, reset_inv _ _ rfl⟩

/-- Settles O26: the flags stay as they are or are those of a comparison, which has exactly one. -/
theorem exactlyOneFlagAfterCmp : Obligations.ExactlyOneFlagAfterCmp := by
  intro s t h
  refine ⟨fun hone => ?kept, fun hr hop hpc ha hb => ?cmp⟩
  case kept =>
    obtain hfl | ⟨_, va, vb, hfl⟩ := step_fl h <;> rw [hfl]
    · exact hone
    · exact compareFlags_exactlyOne va vb
  case cmp =>
    obtain ⟨_, _, hfetched⟩ := cmpWritesAllThreeFlags
    rw [exec_cmp_fl (r := ⟨_, ha⟩) (q := ⟨_, hb⟩) rfl rfl (((hfetched s hr hop).1 hpc).symm.trans h)]
    exact compareFlags_exactlyOne ..

end Sys2Proof.Invariants
end

section
/-! What an instruction does not read has no influence on it. A relation between states that every update of the state
keeps is carried from two states to their next states, where the two agree on what the instruction reads; each statement
takes the relation "the same but for" its part of the state (10_state.md sections 1, 3, 5, 6). -/

namespace Sys2Proof.Noninterference

open Sys2Proof.Machine Sys2Proof.Claims Sys2Proof.Encoding Sys2Proof.Dispatcher Sys2Proof.Fetching Sys2Proof.Meanings
open Sys2Proof.Endings Sys2Proof.Stack Sys2Proof.Frames

/-! ### Relations that the updates of the state keep -/

/-- The relation leaves PC and RUN the same, and an update made on both sides keeps it. -/
structure Kept (R : State → State → Prop) : Prop where
  pc : ∀ {s' s}, R s' s → s'.pc = s.pc
  run : ∀ {s' s}, R s' s → s'.run = s.run
  setReg : ∀ {s' s}, R s' s → ∀ r v, R (s'.setReg r v) (s.setReg r v)
  setFl : ∀ {s' s}, R s' s → ∀ f, R (s'.setFl f) (s.setFl f)
  setPc : ∀ {s' s}, R s' s → ∀ v, R (s'.setPc v) (s.setPc v)
  setRun : ∀ {s' s}, R s' s → ∀ r, R (s'.setRun r) (s.setRun r)
  emit : ∀ {s' s}, R s' s → ∀ e, R (s'.emit e) (s.emit e)
  memWrite : ∀ {s' s}, R s' s → ∀ a v, R (s'.memWrite a v) (s.memWrite a v)

theorem Kept.raise {R : State → State → Prop} (hR : Kept R) {s' s : State} (h : R s' s) (c : Cause) :
    R (raise c s') (raise c s) :=
  hR.setRun h _

/-- The advance looks at PC and RUN only. -/
theorem Kept.advance {R : State → State → Prop} (hR : Kept R) {s' s : State} (h : R s' s) (len : Nat) :
    R (advance len s') (advance len s) := by
  rw [Machine.advance, Machine.advance, hR.pc h, hR.run h]
  split
  · exact hR.setPc h _
  · split
    · exact hR.raise h _
    · exact h

/-- The two states agree on what the instruction reads beside PC and RUN: the registers of 10_state.md R12, FL.E for a
conditional jump, the byte at SP for POP and RET. -/
structure SameReads (i : Instr) (s' s : State) : Prop where
  reg : ∀ r, ReadsReg i r → s'.reg r = s.reg r
  equal : (∃ a, i = .jeq a ∨ i = .jne a) → s'.fl.e = s.fl.e
  stacked : (∃ a, i = .pop a) ∨ i = .ret → s'.memRead s'.sp = s.memRead s.sp

theorem reg_afterPreDecrement_congr {s' s : State} {r : Fin 8} (hsp : s'.sp = s.sp) (hr : s'.reg r = s.reg r) :
    (afterPreDecrement s').reg r = (afterPreDecrement s).reg r := by
  rw [afterPreDecrement, afterPreDecrement, State.reg_setSp, State.reg_setSp, hsp, hr]

/-- The next states are related as the states were. -/
theorem executes_kept {R : State → State → Prop} (hR : Kept R) {i : Instr} {s' s t : State} (h : R s' s)
    (hreads : SameReads i s' s) (hx : Executes s i t) : ∃ t', Executes s' i t' ∧ R t' t := by
  obtain ⟨hreg, hequal, hstacked⟩ := hreads
  have hpc := hR.pc h
  cases hx
  case hlt => exact ⟨_, .hlt, hR.advance (hR.setRun h _) _⟩
  case ldi a imm r ha => exact ⟨_, .ldi a imm r ha, hR.advance (hR.setReg h _ _) _⟩
  case prn a r ha =>
    refine ⟨_, .prn a r ha, ?_⟩
    rw [hreg r ha]
    exact hR.advance (hR.emit h _) _
  case mul a b r q ha hb =>
    refine ⟨_, .mul a b r q ha hb, ?_⟩
    rw [hreg r (.inl ha), hreg q (.inr hb)]
    exact hR.advance (hR.emit h _) _
  case add a b r q ha hb =>
    refine ⟨_, .add a b r q ha hb, ?_⟩
    rw [hreg r (.inl ha), hreg q (.inr hb)]
    exact hR.advance (hR.setReg h _ _) _
  case cmp a b r q ha hb =>
    refine ⟨_, .cmp a b r q ha hb, ?_⟩
    rw [hreg r (.inl ha), hreg q (.inr hb)]
    exact hR.advance (hR.setFl h _) _
  case push a r ha hsp =>
    have hsp' : s'.sp = s.sp := hreg 7 (.inl rfl)
    refine ⟨_, .push a r ha (hsp' ▸ hsp), ?_⟩
    rw [reg_afterPreDecrement_congr hsp' (hreg r (.inr ha)), afterPreDecrement, hsp']
    exact hR.advance (hR.memWrite (hR.setReg h _ _) _ _) _
  case popOther a r ha hr hsp =>
    have hsp' : s'.sp = s.sp := hreg 7 rfl
    refine ⟨_, .popOther a r ha hr (hsp' ▸ hsp), ?_⟩
    rw [hstacked (.inl ⟨a, rfl⟩), hsp']
    exact hR.advance (hR.setReg (hR.setReg h _ _) _ _) _
  case popSp a ha hv =>
    have hv' := hstacked (.inl ⟨a, rfl⟩)
    refine ⟨_, .popSp a ha (hv' ▸ hv), ?_⟩
    rw [hv']
    exact hR.advance (hR.setReg h _ _) _
  case call a r ha hpc' hsp =>
    have hsp' : s'.sp = s.sp := hreg 7 (.inl rfl)
    refine ⟨_, .call a r ha (hpc ▸ hpc') (hsp' ▸ hsp), ?_⟩
    rw [reg_afterPreDecrement_congr hsp' (hreg r (.inr ha)), afterPreDecrement, hsp', hpc]
    exact hR.setPc (hR.memWrite (hR.setReg h _ _) _ _) _
  case ret hsp =>
    have hsp' : s'.sp = s.sp := hreg 7 rfl
    refine ⟨_, .ret (hsp' ▸ hsp), ?_⟩
    rw [hstacked (.inr rfl), hsp']
    exact hR.setReg (hR.setPc h _) _ _
  case jmp a r ha =>
    refine ⟨_, .jmp a r ha, ?_⟩
    rw [hreg r ha]
    exact hR.setPc h _
  case jeqTaken a r ha he =>
    refine ⟨_, .jeqTaken a r ha ((hequal ⟨a, .inl rfl⟩).trans he), ?_⟩
    rw [hreg r ha]
    exact hR.setPc h _
  case jneTaken a r ha he =>
    refine ⟨_, .jneTaken a r ha ((hequal ⟨a, .inr rfl⟩).trans he), ?_⟩
    rw [hreg r ha]
    exact hR.setPc h _
  case jeqNotTaken a ha he => exact ⟨_, .jeqNotTaken a ha ((hequal ⟨a, .inl rfl⟩).trans he), hR.advance h _⟩
  case jneNotTaken a ha he => exact ⟨_, .jneNotTaken a ha ((hequal ⟨a, .inr rfl⟩).trans he), hR.advance h _⟩
  case unknown op => exact ⟨_, .unknown op, hR.advance (hR.emit h _) _⟩
  case regIndex b hb => exact ⟨_, .regIndex i b hb, hR.raise h _⟩
  case returnAddr a ha hpc' =>
    rw [← hpc] at hpc' ⊢
    exact ⟨_, .returnAddr a ha hpc', hR.raise h _⟩
  case pushAtLimit a ha hsp =>
    have hsp' : s'.sp = s.sp := hreg 7 (.inl rfl)
    rw [← hsp'] at hsp ⊢
    exact ⟨_, .pushAtLimit a ha hsp, hR.raise h _⟩
  case callAtLimit a ha hpc' hsp =>
    have hsp' : s'.sp = s.sp := hreg 7 (.inl rfl)
    rw [← hpc] at hpc'
    rw [← hsp'] at hsp ⊢
    exact ⟨_, .callAtLimit a ha hpc' hsp, hR.raise h _⟩
  case popOtherAtTop a ha hsp =>
    have hsp' : s'.sp = s.sp := hreg 7 rfl
    exact ⟨_, .popOtherAtTop a ha (hsp' ▸ hsp), hR.raise h _⟩
  case popSpAtTop a ha hv => exact ⟨_, .popSpAtTop a ha (hstacked (.inl ⟨a, rfl⟩) ▸ hv), hR.raise h _⟩
  case retAtTop hsp =>
    have hsp' : s'.sp = s.sp := hreg 7 rfl
    exact ⟨_, .retAtTop (hsp' ▸ hsp), hR.raise h _⟩

/-- The same for the meanings. -/
theorem exec_kept {R : State → State → Prop} (hR : Kept R) {i : Instr} {s' s t : State} (h : R s' s)
    (hreads : SameReads i s' s) (hx : exec i s = .next t) : ∃ t', exec i s' = .next t' ∧ R t' t := by
  obtain ⟨t', hx', ht'⟩ := executes_kept hR h hreads (exec_executes i s t hx)
  exact ⟨t', executes_exec i s' t' hx', ht'⟩

/-! ### The fetch reads only the instruction's own bytes -/

theorem operandByte_congr {s' s : State} {len k : Nat} (hpc : s'.pc = s.pc)
    (hbytes : k < len → s'.mem.read (s.pc.toNat + k) = s.mem.read (s.pc.toNat + k)) :
    operandByte s' len k = operandByte s len k := by
  rw [operandByte, operandByte, hpc]
  split
  · exact hbytes ‹_›
  · rfl

theorem fetch_congr {s' s : State} (hpc : s'.pc = s.pc)
    (hbytes : ∀ k < opLength (opAt s), s'.mem.read (s.pc.toNat + k) = s.mem.read (s.pc.toNat + k)) :
    fetch s' = fetch s := by
  have hop : s'.memRead s.pc = s.memRead s.pc := hbytes 0 (opLength_pos _)
  have hoperand (k : Nat) :
      operandByte s' (opLength (s.memRead s.pc)) k = operandByte s (opLength (s.memRead s.pc)) k :=
    operandByte_congr hpc (hbytes k)
  simp only [fetch, hpc, hop, hoperand]

/-- Related states with the same instruction bytes at PC step to related states. -/
theorem step_kept {R : State → State → Prop} (hR : Kept R) {s' s t : State} (h : R s' s)
    (hbytes : ∀ k < opLength (opAt s), s'.mem.read (s.pc.toNat + k) = s.mem.read (s.pc.toNat + k))
    (hreads : ∀ i, EncodedAt s i → SameReads i s' s) (ht : step s = .next t) :
    ∃ t', step s' = .next t' ∧ R t' t := by
  have hf := fetch_congr (hR.pc h) hbytes
  obtain ⟨hr, i, hi, hs⟩ | ⟨hr, c, hc, hs⟩ | ⟨hr, hs⟩ := step_cases s
  · rw [step_of_fetch_ok ((hR.run h).trans hr) (hf.trans hi)]
    exact exec_kept hR h (hreads i (encodedAt_of_fetch hi)) (hs.symm.trans ht)
  · cases hs.symm.trans ht
    exact ⟨_, LoadOutput.step_of_fetch_error ((hR.run h).trans hr) (hf.trans hc), hR.raise h c⟩
  · cases hs.symm.trans ht
    exact ⟨s', step_of_not_running (hR.run h ▸ hr), h⟩

/-! ### The flags -/

/-- The states are the same but for the flags. -/
def SameButFlags (s' s : State) : Prop := ∃ f, s' = s.setFl f

theorem kept_sameButFlags : Kept SameButFlags where
  pc := by rintro _ _ ⟨f, rfl⟩; rfl
  run := by rintro _ _ ⟨f, rfl⟩; rfl
  setReg := by rintro _ _ ⟨f, rfl⟩ r v; exact ⟨f, rfl⟩
  setFl := by rintro _ _ ⟨f, rfl⟩ g; exact ⟨g, rfl⟩
  setPc := by rintro _ _ ⟨f, rfl⟩ v; exact ⟨f, rfl⟩
  setRun := by rintro _ _ ⟨f, rfl⟩ r; exact ⟨f, rfl⟩
  emit := by rintro _ _ ⟨f, rfl⟩ e; exact ⟨f, rfl⟩
  memWrite := by rintro _ _ ⟨f, rfl⟩ a v; exact ⟨f, rfl⟩

theorem compareFlags_eq (va vb : Byte) :
    compareFlags va vb = ⟨decide (va.toNat < vb.toNat), decide (vb.toNat < va.toNat), va == vb⟩ := by
  rw [compareFlags, Flags.mk.injEq]
  refine ⟨rfl, rfl, Bool.eq_iff_iff.mpr ?_⟩
  rw [decide_eq_true_iff, BitVec.toNat_inj, beq_iff_eq]

/-- Settles O27: the frame of the flags, and the flags as a part of the state that only FL.E is read of. -/
theorem flagsOnlyByCmpAndConditionalJumps : Obligations.FlagsOnlyByCmpAndConditionalJumps := by
  refine ⟨fun s t h hop => ?step, fun i s t h hi => ?exec,
    fun a b s t h => ⟨fun r q ha hb => ?cmp, fun hsel => ?fault⟩, fun i s f g t hfg h => ?unread⟩
  case step =>
    obtain hfl | ⟨hcmp, _⟩ := step_fl h
    · exact hfl
    · exact absurd hcmp hop
  case exec =>
    obtain hfl | ⟨a, b, _, _, hcmp, _⟩ := executes_fl (exec_executes i s t h)
    · exact hfl
    · exact absurd hcmp (hi a b)
  case cmp =>
    rw [exec_cmp_fl ha hb h]
    exact compareFlags_eq ..
  case fault =>
    obtain hfl | ⟨_, _, r, q, hcmp, ha, hb, _⟩ := executes_fl (exec_executes _ s t h)
    · exact hfl
    · cases hcmp
      omega
  case unread =>
    have hreads : SameReads i { s with fl := g } { s with fl := f } := {
      reg := fun _ _ => rfl
      equal := fun ⟨a, ha⟩ => by
        obtain he | hne := hfg
        · exact he.symm
        · exact absurd ha (not_or.mpr (hne a))
      stacked := fun _ => rfl }
    obtain ⟨u, hu, f', rfl⟩ := exec_kept kept_sameButFlags ⟨g, rfl⟩ hreads h
    exact ⟨_, hu, rfl⟩

/-! ### The registers -/

/-- The states are the same but for the register `r`, which may hold `v` in the first. -/
def SameButReg (r : Fin 8) (v : Byte) (s' s : State) : Prop := s' = s ∨ s' = s.setReg r v

theorem setReg_setReg_comm {r q : Fin 8} (h : r ≠ q) (v w : Byte) (s : State) :
    (s.setReg r v).setReg q w = (s.setReg q w).setReg r v := by
  simp only [State.setReg]
  rw [Vector.set_comm _ _ (fun h' => h (Fin.ext h'))]

theorem kept_sameButReg (r : Fin 8) (v : Byte) : Kept (SameButReg r v) where
  pc := by rintro _ _ (rfl | rfl) <;> rfl
  run := by rintro _ _ (rfl | rfl) <;> rfl
  setReg := by
    rintro _ s (rfl | rfl) q w
    · exact .inl rfl
    · obtain rfl | hq := eq_or_ne r q
      · exact .inl (by simp [State.setReg])
      · exact .inr (setReg_setReg_comm hq v w s)
  setFl := by rintro _ _ (rfl | rfl) g; exacts [.inl rfl, .inr rfl]
  setPc := by rintro _ _ (rfl | rfl) w; exacts [.inl rfl, .inr rfl]
  setRun := by rintro _ _ (rfl | rfl) w; exacts [.inl rfl, .inr rfl]
  emit := by rintro _ _ (rfl | rfl) e; exacts [.inl rfl, .inr rfl]
  memWrite := by rintro _ _ (rfl | rfl) a w; exacts [.inl rfl, .inr rfl]

/-- Settles O28: the frame of the registers, and one register as a part of the state that is not read. -/
theorem registersReadAndWritten : Obligations.RegistersReadAndWritten := by
  refine ⟨fun i s t r h hr => executes_reg (exec_executes i s t h) hr, fun i s t r v h hr => ?unread⟩
  have hne {q : Fin 8} (hq : ReadsReg i q) : r ≠ q := fun hrq => hr (hrq ▸ hq)
  have hreads : SameReads i (s.setReg r v) s := {
    reg := fun q hq => reg_setReg_of_ne (hne hq) v
    equal := fun _ => rfl
    stacked := fun hi => by
      have hsp : ReadsReg i spIndex := by obtain ⟨a, rfl⟩ | rfl := hi <;> rfl
      exact congrArg s.memRead (reg_setReg_of_ne (hne hsp) v) }
  obtain ⟨u, hu, rfl | rfl⟩ := exec_kept (kept_sameButReg r v) (.inr rfl) hreads h
  · exact ⟨u, hu, rfl, fun _ _ => rfl, .inl rfl⟩
  · exact ⟨_, hu, rfl, fun q hq => reg_setReg_of_ne hq.symm v, .inr (State.reg_setReg_self ..)⟩

/-! ### Memory -/

/-- The states are the same but for the memory cell at `b`. -/
def SameButCell (b : Nat) (s' s : State) : Prop :=
  ∃ m, s' = { s with mem := m } ∧ ∀ c, c ≠ b → m.read c = s.mem.read c

theorem kept_sameButCell (b : Nat) : Kept (SameButCell b) where
  pc := by rintro _ _ ⟨m, rfl, _⟩; rfl
  run := by rintro _ _ ⟨m, rfl, _⟩; rfl
  setReg := by rintro _ _ ⟨m, rfl, hm⟩ r v; exact ⟨m, rfl, hm⟩
  setFl := by rintro _ _ ⟨m, rfl, hm⟩ g; exact ⟨m, rfl, hm⟩
  setPc := by rintro _ _ ⟨m, rfl, hm⟩ v; exact ⟨m, rfl, hm⟩
  setRun := by rintro _ _ ⟨m, rfl, hm⟩ r; exact ⟨m, rfl, hm⟩
  emit := by rintro _ _ ⟨m, rfl, hm⟩ e; exact ⟨m, rfl, hm⟩
  memWrite := by
    rintro _ s ⟨m, rfl, hm⟩ a v
    refine ⟨m.write a.toNat v, rfl, fun c hc => ?_⟩
    rw [State.memWrite_mem, Memory.read_write, Memory.read_write, hm c hc]

/-- Settles O35: one cell as a part of the state that neither the fetch nor POP or RET reads. -/
theorem onlyFetchPopAndRetRead : Obligations.OnlyFetchPopAndRetRead := by
  intro s t b v h hown hstack
  have hcell (c : Nat) (hc : c ≠ b) : (s.mem.write b v).read c = s.mem.read c := by
    rw [Memory.read_write, if_neg hc]
  have hreads (i : Instr) (hi : EncodedAt s i) : SameReads i { s with mem := s.mem.write b v } s := {
    reg := fun _ _ => rfl
    equal := fun _ => rfl
    stacked := fun hpop => hcell _ fun hb => by
      obtain ⟨hnpop, hnret⟩ := hstack hb.symm
      obtain ⟨a, rfl⟩ | rfl := hpop
      · exact hnpop (opAt_of_mnemonicOf hi rfl)
      · exact hnret (opAt_of_mnemonicOf hi rfl) }
  obtain ⟨_, hu, m, rfl, hm⟩ := step_kept (kept_sameButCell b) ⟨_, rfl, hcell⟩
    (fun k hk => hcell _ (by omega)) hreads h
  exact ⟨_, hu, rfl, hm⟩

/-! ### The Sink -/

/-- The first state has the events `o` before those of the second, and is the same otherwise. -/
def EventsBefore (o : List Event) (s' s : State) : Prop := s' = { s with out := o ++ s.out }

theorem kept_eventsBefore (o : List Event) : Kept (EventsBefore o) where
  pc := by rintro _ _ rfl; rfl
  run := by rintro _ _ rfl; rfl
  setReg := by rintro _ _ rfl r v; rfl
  setFl := by rintro _ _ rfl f; rfl
  setPc := by rintro _ _ rfl v; rfl
  setRun := by rintro _ _ rfl r; rfl
  emit := by
    rintro _ s rfl e
    exact congrArg (fun l => { s with out := l }) (List.append_assoc ..)
  memWrite := by rintro _ _ rfl a v; rfl

/-- Settles O37: earlier events as a part of the state that no step reads. -/
theorem sinkStreamIsNeverRead : Obligations.SinkStreamIsNeverRead := by
  intro s t o h
  obtain ⟨_, hu, rfl⟩ := step_kept (kept_eventsBefore o) rfl (fun _ _ => rfl)
    (fun _ _ => ⟨fun _ _ => rfl, fun _ => rfl, fun _ => rfl⟩) h
  exact hu

end Sys2Proof.Noninterference
end

section
/-! The faults of a step: which it can end with, in which order they are checked, and what each leaves unchanged; and PC
after an instruction that does not fault (10_state.md section 2, 60_exceptions.md sections 2 to 4). -/

namespace Sys2Proof.Faults

open Sys2Proof.Machine Sys2Proof.Claims Sys2Proof.Encoding Sys2Proof.Dispatcher Sys2Proof.Fetching Sys2Proof.Meanings
open Sys2Proof.Endings Sys2Proof.Stack

/-! ### PC after each instruction -/

theorem sequential_advance {len : Nat} {s e : State} (hpc : e.pc = s.pc) : Sequential len s (advance len e) := by
  intro hfits
  rw [← hpc] at hfits ⊢
  rw [advance_of_fits hfits]
  exact toNat_add_trunc8 hfits

/-- Settles O29: an outcome advances by the length, sets PC from a register or from the stack, or is a fault. -/
theorem pcAfterEachInstruction : Obligations.PcAfterEachInstruction := by
  intro i s t h hbad
  have same_reg {a : Byte} {r q : Fin 8} (hr : a.toNat = r.val) (hq : a.toNat = q.val) : r = q :=
    Fin.ext (hr.symm.trans hq)
  cases exec_executes i s t h
  case call a r ha _ _ => exact fun q hq => same_reg ha hq ▸ rfl
  case ret => rfl
  case jmp a r ha => exact fun q hq => same_reg ha hq ▸ rfl
  case jeqTaken a r ha he =>
    rw [PcAfter, if_pos he]
    exact fun q hq => same_reg ha hq ▸ rfl
  case jeqNotTaken a ha he =>
    rw [PcAfter, if_neg (by simp [he])]
    exact sequential_advance rfl
  case jneTaken a r ha he =>
    rw [PcAfter, if_neg (by simp [he])]
    exact fun q hq => same_reg ha hq ▸ rfl
  case jneNotTaken a ha he =>
    rw [PcAfter, if_pos he]
    exact sequential_advance rfl
  case hlt | ldi | prn | mul | add | push | popOther | popSp | cmp | unknown => exact sequential_advance rfl
  case regIndex | returnAddr | pushAtLimit | callAtLimit | popOtherAtTop | popSpAtTop | retAtTop =>
    exact absurd ⟨_, rfl⟩ hbad

/-! ### The conditions of each fault -/

theorem opc_injective : Function.Injective opc := fun m n h =>
  Option.some.inj ((decodeOp_opc m).symm.trans (h ▸ decodeOp_opc n))

/-- The first selector is the first operand byte. -/
theorem read_of_selectors_cons {s : State} {i : Instr} {a : Byte} {l : List Byte} (hi : EncodedAt s i)
    (h : selectors i = a :: l) : s.mem.read (s.pc.toNat + 1) = a := by
  cases i <;> cases h
  all_goals exact hi.bytes 1 (by simp [encode])

/-- The second selector is the second operand byte. -/
theorem read_of_selectors_pair {s : State} {i : Instr} {a b : Byte} (hi : EncodedAt s i)
    (h : selectors i = [a, b]) : s.mem.read (s.pc.toNat + 2) = b := by
  cases i <;> cases h
  all_goals exact hi.bytes 2 (by simp [encode])

/-- Which instructions have how many selectors, by their mnemonics (10_state.md R13). -/
theorem selectors_cases {i : Instr} {m : Mnemonic} (hm : mnemonicOf i = some m) :
    (selectors i = [] ∧ (m = .hlt ∨ m = .ret)) ∨
    (m ≠ .hlt ∧ m ≠ .ret ∧ ∃ a l, selectors i = a :: l ∧
      (l = [] ∧ ¬ (m = .mul ∨ m = .add ∨ m = .cmp) ∨
        (m = .mul ∨ m = .add ∨ m = .cmp) ∧ ∃ b, l = [b])) := by
  cases i <;> cases hm
  all_goals simp [selectors]

theorem raisedWhen_regIndex {s : State} {i : Instr} {b : Byte} (hi : EncodedAt s i)
    (hb : (selectors i).find? (fun b => decide (8 ≤ b.toNat)) = some b) :
    RaisedWhen s (.outOfBounds .regIndex (b.toNat : Int)) := by
  have h8 : 8 ≤ b.toNat := by simpa using List.find?_some hb
  have hlt := b.isLt
  have hmem : b ∈ selectors i := List.mem_of_find?_eq_some hb
  cases hm : mnemonicOf i with
  | none =>
    cases i <;> cases hm
    cases hmem
  | some m =>
    obtain ⟨hnil, _⟩ | ⟨hhlt, hret, a, l, hsel, hl⟩ := selectors_cases hm
    · rw [hnil] at hmem
      cases hmem
    have hop := opAt_of_mnemonicOf hi hm
    refine ⟨by omega, by omega, ⟨m, hop.symm, hhlt, hret⟩, ?_⟩
    rw [hsel] at hmem
    obtain rfl | hmem := List.mem_cons.mp hmem
    · exact .inl (by rw [read_of_selectors_cons hi hsel])
    · obtain ⟨rfl, _⟩ | ⟨hpair, c, rfl⟩ := hl
      · cases hmem
      · obtain rfl := List.mem_singleton.mp hmem
        refine .inr ⟨by rw [read_of_selectors_pair hi hsel], ?_⟩
        rw [hop]
        exact hpair.imp (congrArg opc) (.imp (congrArg opc) (congrArg opc))

/-- A fault before any effect has the condition and the value that the list gives it. -/
theorem raisedWhen_of_raises {s : State} {i : Instr} {c : Cause} (hi : EncodedAt s i) (h : Raises s i c) :
    RaisedWhen s c := by
  cases h with
  | regIndex i b hb => exact raisedWhen_regIndex hi hb
  | returnAddr a ha hpc =>
    have hfits : s.pc.toNat + 2 ≤ 256 := hi.fits
    exact ⟨by omega, opAt_of_mnemonicOf hi rfl, by omega⟩
  | pushAtLimit a ha hsp => exact .inl ⟨.inl (opAt_of_mnemonicOf hi rfl), hsp, rfl⟩
  | callAtLimit a ha hpc hsp => exact .inl ⟨.inr (opAt_of_mnemonicOf hi rfl), hsp, rfl⟩
  | popAtTop a htop =>
    exact .inr (.inl ⟨rfl, opAt_of_mnemonicOf hi rfl, (read_of_selectors_cons hi rfl).symm ▸ htop⟩)
  | retAtTop hsp => exact .inr (.inr ⟨rfl, opAt_of_mnemonicOf hi rfl, hsp⟩)

/-- The opcodes that do not go on with the next instruction, and the two that do so by FL.E (10_state.md R15). -/
theorem mnemonicOf_of_goesOn {s : State} {i : Instr} (h : GoesOn s i) :
    mnemonicOf i ≠ some .hlt ∧ mnemonicOf i ≠ some .call ∧ mnemonicOf i ≠ some .ret ∧
      mnemonicOf i ≠ some .jmp ∧ (mnemonicOf i = some .jeq → s.fl.e = false) ∧
      (mnemonicOf i = some .jne → s.fl.e = true) := by
  refine ⟨?_, ?_, ?_, ?_, ?_, ?_⟩
  all_goals
    intro hm
    cases i <;> cases hm
    exact h

/-- An advance past address 255 begins at an instruction whose last byte is at 255. -/
theorem raisedWhen_nextFetch {s : State} {i : Instr} (hi : EncodedAt s i) (hgo : GoesOn s i)
    (hover : 255 < s.pc.toNat + (encode i).length) :
    RaisedWhen s (.outOfBounds .nextFetch ((s.pc.toNat + (encode i).length : Nat) : Int)) := by
  have hfits := hi.fits
  have hlen := opLength_opAt_of_encodedAt hi
  obtain ⟨hhlt, hcall, hret, hjmp, hjeq, hjne⟩ := mnemonicOf_of_goesOn hgo
  exact ⟨by omega, by omega, fun h => hhlt (mnemonicOf_of_opAt hi h), fun h => hcall (mnemonicOf_of_opAt hi h),
    fun h => hret (mnemonicOf_of_opAt hi h), fun h => hjmp (mnemonicOf_of_opAt hi h),
    fun h => hjeq (mnemonicOf_of_opAt hi h), fun h => hjne (mnemonicOf_of_opAt hi h)⟩

/-! ### The fault a running step ends with -/

/-- How a running step ends FAULTED(c): with OperandFetch or a fault before any effect, which change RUN alone, or with
NextFetch on the effects `e` of an instruction that goes on. -/
inductive FaultedStep (s t : State) (c : Cause) : Prop
  | operandFetch (hover : 255 < s.pc.toNat + opLength (opAt s) - 1) (ht : t = raise c s)
      (hc : c = .outOfBounds .operandFetch ((s.pc.toNat + opLength (opAt s) - 1 : Nat) : Int))
  | beforeEffects (i : Instr) (hi : EncodedAt s i) (hraises : Raises s i c) (ht : t = raise c s)
  | nextFetch (i : Instr) (e : State) (hi : EncodedAt s i) (hgo : GoesOn s i) (hs : step s = exec i s)
      (hover : 255 < s.pc.toNat + (encode i).length) (hpc : e.pc = s.pc) (hrun : e.run = .running)
      (hany : ∀ p, Executes (s.setPc p) i (advance (encode i).length (e.setPc p))) (ht : t = raise c e)
      (hc : c = .outOfBounds .nextFetch ((s.pc.toNat + (encode i).length : Nat) : Int))

theorem step_faulted {s t : State} {c : Cause} (hr : s.run = .running) (h : step s = .next t)
    (hc : t.run = .faulted c) : FaultedStep s t c := by
  obtain ⟨i, hi, hs, hx⟩ | ⟨hover, ht⟩ := step_running hr h
  · cases executes_ending hx with
    | advances e hgo ht hpc hrun hany =>
      obtain hkeep | ⟨hover, _, hraise⟩ := advance_run_cases (encode i).length e
      · rw [ht, hkeep, hrun, hr] at hc
        cases hc
      · rw [hraise, hpc] at ht
        cases (congrArg State.run ht).symm.trans hc
        exact .nextFetch i e hi hgo hs (hpc ▸ hover) hpc (hrun.trans hr) hany ht rfl
    | halts _ ht =>
      rw [ht, advance_of_not_running (e := s.setRun .halted) nofun] at hc
      cases hc
    | jumps _ hrun => cases (hrun.trans hr).symm.trans hc
    | raises c' hraises ht =>
      cases (congrArg State.run ht).symm.trans hc
      exact .beforeEffects i hi hraises ht
  · cases (congrArg State.run ht).symm.trans hc
    exact .operandFetch hover ht rfl

/-- Settles O32: each way to end FAULTED has the condition and the value of the list. -/
theorem faultCausesAreTheListed : Obligations.FaultCausesAreTheListed := by
  intro s t c hr h hc
  cases step_faulted hr h hc with
  | operandFetch hover _ hc =>
    subst hc
    have hlen := opLength_le (opAt s)
    have hpc := s.pc.isLt
    exact ⟨by omega, by omega⟩
  | beforeEffects i hi hraises _ => exact raisedWhen_of_raises hi hraises
  | nextFetch i _ hi hgo _ hover _ _ _ _ hc => exact hc ▸ raisedWhen_nextFetch hi hgo hover

/-- Settles O33: the ALU answers the exception for such a selector, and the list of causes does not hold it. -/
theorem unsupportedOperationIsNeverRaised : Obligations.UnsupportedOperationIsNeverRaised :=
  ⟨fun code a b s ha hb => aluInstr_valid (.other code) a b s ⟨a.toNat, ha⟩ ⟨b.toNat, hb⟩ rfl rfl,
    fun s t sel hr h hc => faultCausesAreTheListed s t (.unsupportedOperation sel) hr h hc⟩

/-- Settles O31: NextFetch is raised on effects that do not depend on PC, every other fault before any effect. -/
theorem faultsArePrecise : Obligations.FaultsArePrecise := by
  intro s t c hr h hc
  cases step_faulted hr h hc with
  | operandFetch _ ht hc => exact ⟨fun _ => ht, fun ⟨_, hv⟩ => nomatch hc.symm.trans hv⟩
  | beforeEffects i _ hraises ht => exact ⟨fun _ => ht, fun ⟨v, hv⟩ => absurd hv (hraises.ne_nextFetch v)⟩
  | nextFetch i e hi _ hs _ hpc hrun hany ht hc =>
    refine ⟨fun hne => absurd hc (hne _),
      fun _ => ⟨i, (e.setPc 0).setPc (0 + trunc8 (encode i).length), hs, ?exec, hrun, ?same⟩⟩
    case exec =>
      obtain ⟨_, _, _, _, hlen⟩ := encodeLength i hi.wellFormed
      have hfits : (e.setPc 0).pc.toNat + (encode i).length ≤ 255 := by
        rw [State.setPc_pc]
        exact Nat.le_trans (Nat.add_le_add_left hlen 0) (by decide)
      exact (executes_exec i _ _ (hany 0)).trans (congrArg _ (advance_of_fits hfits))
    case same =>
      rw [ht, ← hpc]
      rfl

/-! ### The order of the checks -/

theorem executes_of_raises {s : State} {i : Instr} {c : Cause} (h : Raises s i c) : Executes s i (raise c s) := by
  cases h with
  | regIndex i b hb => exact .regIndex i b hb
  | returnAddr a ha hpc => exact .returnAddr a ha hpc
  | pushAtLimit a ha hsp => exact .pushAtLimit a ha hsp
  | callAtLimit a ha hpc hsp => exact .callAtLimit a ha hpc hsp
  | popAtTop a htop =>
    obtain ⟨ha, hsp⟩ | ⟨ha, hv⟩ := htop
    · exact .popOtherAtTop a ha hsp
    · exact .popSpAtTop a ha hv
  | retAtTop hsp => exact .retAtTop hsp

/-- A fault whose condition holds is the one the instruction takes. -/
theorem run_of_raises {s t : State} {i : Instr} {c : Cause} (h : Raises s i c) (ht : exec i s = .next t) :
    t.run = .faulted c := by
  cases ht.symm.trans (executes_exec i s _ (executes_of_raises h))
  rfl

/-- Where none of the checks before the effects applies, a listed fault is NextFetch, at the end of memory. -/
theorem eq_nextFetch_of_raisedWhen {s : State} {m : Mnemonic} {c : Cause} (h : RaisedWhen s c) (hop : opAt s = opc m)
    (hret : m ≠ .ret) (hfits : s.pc.toNat + lengthOf m ≤ 256)
    (ha : ¬ 8 ≤ (s.mem.read (s.pc.toNat + 1)).toNat)
    (hb : ¬ ((m = .mul ∨ m = .add ∨ m = .cmp) ∧ 8 ≤ (s.mem.read (s.pc.toNat + 2)).toNat))
    (hcall : ¬ (m = .call ∧ s.pc.toNat = 254))
    (hpush : ¬ ((m = .push ∨ m = .call) ∧ s.x[7].toNat ≤ Config.stackLimit.toNat))
    (hpop : ¬ (m = .pop ∧ PopPassesTop (s.mem.read (s.pc.toNat + 1)) s)) :
    s.pc.toNat + lengthOf m = 256 ∧ c = .outOfBounds .nextFetch 256 := by
  have hlen : opLength (opAt s) = lengthOf m := by rw [hop, opLength_opc_eq_lengthOf]
  have mnemonic {n : Mnemonic} (hn : opAt s = opc n) : m = n := opc_injective (hop.symm.trans hn)
  match c, h with
  | .outOfBounds .operandFetch v, ⟨hv, hvalue⟩ => omega
  | .outOfBounds .regIndex v, ⟨h8, _, _, hv⟩ =>
    obtain hv | ⟨hv, hpair⟩ := hv
    · omega
    · exact absurd ⟨hpair.imp mnemonic (.imp mnemonic mnemonic), by omega⟩ hb
  | .outOfBounds .returnAddr v, ⟨_, hn, hpc⟩ => exact absurd ⟨mnemonic hn, hpc⟩ hcall
  | .outOfBounds .stackAddr v, hstack =>
    obtain ⟨hn, hsp, _⟩ | ⟨_, hn, htop⟩ | ⟨_, hn, _⟩ := hstack
    · exact absurd ⟨hn.imp mnemonic mnemonic, hsp⟩ hpush
    · exact absurd ⟨mnemonic hn, htop⟩ hpop
    · exact absurd (mnemonic hn) hret
  | .outOfBounds .nextFetch v, ⟨hv, hend, _⟩ => exact ⟨hlen ▸ hend, by rw [hv]⟩

/-- Settles O38: a check that applies, where those before it passed, is a fault of `Raises`; where none applies, the
list of causes leaves NextFetch alone. -/
theorem faultPriority : Obligations.FaultPriority := by
  intro s t m hr h hop hhlt hret
  have hlen : opLength (opAt s) = lengthOf m := by rw [hop, opLength_opc_eq_lengthOf]
  obtain ⟨i, hi, hs, hx⟩ | ⟨hover, ht⟩ := step_running hr h
  case inr => rw [if_pos (hlen ▸ hover), ht, hlen, raise_run]
  have hm := mnemonicOf_of_opAt hi hop
  have hfits : s.pc.toNat + lengthOf m ≤ 256 := hlen ▸ (opLength_opAt_of_encodedAt hi).symm ▸ hi.fits
  have hexec := hs.symm.trans h
  obtain ⟨_, hnone⟩ | ⟨_, _, a, l, hsel, hl⟩ := selectors_cases hm
  case inl => exact absurd hnone (not_or.mpr ⟨hhlt, hret⟩)
  have hread := read_of_selectors_cons hi hsel
  have hvalid (ha : ¬ 8 ≤ (s.mem.read (s.pc.toNat + 1)).toNat) : a.toNat < 8 := by rwa [hread, Nat.not_le] at ha
  rw [if_neg (by omega)]
  split_ifs with ha hb hcall hpush hpop
  case pos =>
    rw [hread] at ha ⊢
    exact run_of_raises (.regIndex i a (find_selector_first hsel ha)) hexec
  case pos =>
    obtain ⟨hpair, hb⟩ := hb
    obtain ⟨_, hone⟩ | ⟨_, b, rfl⟩ := hl
    · exact absurd hpair hone
    rw [read_of_selectors_pair hi hsel] at hb ⊢
    exact run_of_raises (.regIndex i b (find_selector_second hsel (hvalid ha) hb)) hexec
  case pos =>
    obtain ⟨rfl, hpc⟩ := hcall
    obtain rfl : i = .call a := by cases i <;> cases hm; cases hsel; rfl
    have hc := run_of_raises (.returnAddr a (hvalid ha) (by omega)) hexec
    rwa [hpc] at hc
  case pos =>
    obtain ⟨rfl | rfl, hsp⟩ := hpush
    · obtain rfl : i = .push a := by cases i <;> cases hm; cases hsel; rfl
      exact run_of_raises (.pushAtLimit a (hvalid ha) hsp) hexec
    · obtain rfl : i = .call a := by cases i <;> cases hm; cases hsel; rfl
      have hpc : s.pc.toNat ≠ 254 := fun hpc => hcall ⟨rfl, hpc⟩
      have hfits : s.pc.toNat + 2 ≤ 256 := hfits
      exact run_of_raises (.callAtLimit a (hvalid ha) (by omega) hsp) hexec
  case pos =>
    obtain ⟨rfl, htop⟩ := hpop
    obtain rfl : i = .pop a := by cases i <;> cases hm; cases hsel; rfl
    exact run_of_raises (.popAtTop a (hread ▸ htop)) hexec
  case neg =>
    match hrun : t.run with
    | .running => exact .inl rfl
    | .halted =>
      obtain rfl := eq_hlt_of_halted hx (by rw [hr]; nofun) hrun
      cases hm
      exact absurd rfl hhlt
    | .faulted c =>
      have hlisted := faultCausesAreTheListed s t c hr h hrun
      obtain ⟨hend, rfl⟩ := eq_nextFetch_of_raisedWhen hlisted hop hret hfits ha hb hcall hpush hpop
      exact .inr ⟨hend, rfl⟩

end Sys2Proof.Faults
end

section
/-! Reset, load and the launch state (10_state.md section 8, 70_reset_and_hazards.md sections 1 and 2). -/

namespace Sys2Proof.Launch

open Sys2Proof.Machine Sys2Proof.Claims

/-! ### Reset -/

theorem resetWith_sp (gpr : Vector Byte 7) (mem : Memory) : (State.resetWith gpr mem).x[7] = 0xF4 :=
  Vector.getElem_push_eq

theorem resetWith_gpr (gpr : Vector Byte 7) (mem : Memory) (k : Nat) (h : k < 7) :
    (State.resetWith gpr mem).x[k] = gpr[k] :=
  Vector.getElem_push_lt h

/-- Settles O40: reset builds its state from the two open parameters alone; nothing of the state before is in it. -/
theorem resetState : Obligations.ResetState := by
  refine ⟨fun gpr mem s => ⟨_, rfl, resetWith_sp gpr mem, resetWith_gpr gpr mem, rfl, rfl, rfl, rfl, rfl⟩,
    fun k h => ?zeros, fun b => rfl, rfl⟩
  case zeros => exact (resetWith_gpr _ _ k h).trans (Vector.getElem_replicate h)

/-! ### Load -/

theorem load_of_fits {img : List Byte} (h : img.length ≤ 256) (s : State) :
    load img s = .next { s with mem := s.mem.store 0 img } := if_pos h

theorem read_store_image {img : List Byte} (m : Memory) {k : Nat} (h : k < img.length) :
    (m.store 0 img).read k = img[k] := by
  rw [Memory.read_store, if_pos ⟨Nat.zero_le k, by omega⟩, Nat.sub_zero, List.getD_eq_getElem _ _ h]

theorem read_store_beyond_image {img : List Byte} (m : Memory) {b : Nat} (h : img.length ≤ b) :
    (m.store 0 img).read b = m.read b := by
  rw [Memory.read_store, if_neg (by omega)]

/-- Settles O41: the image is stored from address 0 up where it fits, and refused as a whole where it does not. -/
theorem loadPlacesTheImage : Obligations.LoadPlacesTheImage := fun img s =>
  ⟨fun h => ⟨_, load_of_fits h s, fun _ hk => read_store_image s.mem hk,
    fun _ hb => read_store_beyond_image s.mem hb,
    fun hwf => Memory.wf_store img s.mem 0 hwf (by rw [Nat.zero_add]; exact h)⟩,
    fun h => if_neg (Nat.not_le.mpr h)⟩

/-- The byte at LOAD_BASE after the load: that of the image, or of the memory where the image is empty. -/
theorem read_store_zero (m : Memory) (img : List Byte) : (m.store 0 img).read 0 = img.headD (m.read 0) := by
  cases img with
  | nil => rfl
  | cons v vs => exact read_store_image m (Nat.zero_lt_succ _)

/-- Settles O42: the load changes the memory of the reset state alone, and PC is at LOAD_BASE. -/
theorem launchRunsTheFirstImageByte : Obligations.LaunchRunsTheFirstImageByte := fun gpr mem img h =>
  ⟨_, load_of_fits h _, rfl, rfl, rfl, read_store_zero mem img, resetWith_sp gpr mem, rfl, resetWith_gpr gpr mem,
    fun _ hk => read_store_image mem hk, fun _ hb => read_store_beyond_image mem hb⟩

end Sys2Proof.Launch
end
